-- ==== Sys2Proof/Word.lean ====
section
/-! DEFINITION. The units the block moves: bytes, 16-bit code words, 8x8 blocks of integers and 16x16 RGB patches
(spec 00_scope.md R8, R13; 10_state.md R29 to R32; 20_memory.md R50). -/

namespace Sys2Proof

/-- One byte of an image, of a patch, of a table, or of the byte form of the input. -/
abbrev Byte := BitVec 8

/-- One code word of the stream: 16 bits, unsigned (R70). -/
abbrev Word := BitVec 16

/-- An 8x8 block in natural order (R13): integers, as R35 allows (log 12). -/
abbrev Block := Vector Int 64

/-- A macroblock's 16x16 pixels of 3 bytes each (R32). -/
abbrev Patch := Vector Byte 768

/-- The block whose 64 elements are 0. -/
def Block.zero : Block := Vector.replicate 64 0

/-- The patch whose 768 bytes are 0. -/
def Patch.zero : Patch := Vector.replicate 768 0

/-- Natural position `p = y*8 + x` of column x, row y (R13). -/
def natPos (y x : Fin 8) : Fin 64 := ⟨y.val * 8 + x.val, by omega⟩

/-- The row of a natural position. -/
def rowOf (p : Fin 64) : Fin 8 := ⟨p.val / 8, by omega⟩

/-- The column of a natural position. -/
def colOf (p : Fin 64) : Fin 8 := ⟨p.val % 8, by omega⟩

/-- Byte of patch pixel (px, py), channel c (R32, R55). -/
def patchPos (py px : Fin 16) (c : Fin 3) : Fin 768 := ⟨(py.val * 16 + px.val) * 3 + c.val, by omega⟩

end Sys2Proof
end

