-- ==== Sys2Proof/Config.lean ====
section
/-! DEFINITION. What an implementation fixes: the parameters of spec 00_scope.md R8, the real-valued reference transform
they are measured against (41_inverse_transform.md R141, R142), what makes a choice of parameters admissible (R105, R144, R145),
and the one opaque constant that leaves the machine's own choice open (logs 3 and 4). -/

namespace Sys2Proof

/-- How two bytes form a word in START_BYTES (20_memory.md R52). -/
inductive ByteOrder where
  | little
  | big
  deriving DecidableEq, Repr

/-- DC weight convention of the reference transform (R8, R141). -/
inductive IdctNorm where
  | unitDc
  | jpeg
  deriving DecidableEq, Repr

/-- Conversion of a channel's exact value to an integer (R8, R163). -/
inductive ColorToInt where
  | trunc
  | floor
  | nearest
  deriving DecidableEq, Repr

/-- The table ROM (20_memory.md R50): two quantization tables of 64 entries in 0..255 in natural order (R103), and the
zigzag index to natural position table (R104). -/
structure Tables where
  qtY : Vector Byte 64
  qtC : Vector Byte 64
  zz  : Vector (Fin 64) 64
  deriving DecidableEq, Repr

/-- Everything an implementation fixes before RESET (R8). No operation writes any of it (R10). -/
structure Params extends Tables where
  norm       : IdctNorm
  /-- IDCT_IMPL, macroblock by macroblock of a decode: an implementation may mix factorisations (R241), but the six blocks of one
  macroblock go through the same one (R150, log 4). -/
  idct       : Nat → Block → Block
  colorToInt : ColorToInt
  byteOrder  : ByteOrder
  maxWords   : Nat
  maxW       : Nat
  maxH       : Nat

/-- Both constraints of R105 on ZZ: a bijection on 0..63 (one to one suffices) that maps index 0 to position 0. -/
abbrev Tables.ZigzagOk (T : Tables) : Prop :=
  T.zz[0] = 0 ∧ ∀ i j : Fin 64, T.zz[i] = T.zz[j] → i = j

/-- The weight c(u) of R141 under each normalisation. -/
noncomputable def dctWeight : IdctNorm → Fin 8 → ℝ
  | .unitDc, u => if u = 0 then 1 else √2
  | .jpeg, u => if u = 0 then 1 / (2 * √2) else 1 / 2

/-- The basis value `c(u) · cos((2n+1)uπ/16)` of R141 and R151. A real number of the spec's own text: no step computes it. -/
noncomputable def dctBasis (norm : IdctNorm) (n u : Fin 8) : ℝ :=
  dctWeight norm u * Real.cos ((2 * (n.val : ℝ) + 1) * u.val * Real.pi / 16)

/-- The 2-D reference `S_REF(F)[p]` of R142, in real arithmetic. No step computes it. -/
noncomputable def sRef (norm : IdctNorm) (F : Block) (p : Fin 64) : ℝ :=
  ∑ v : Fin 8, ∑ u : Fin 8, (F[natPos v u] : ℝ) * dctBasis norm (rowOf p) v * dctBasis norm (colOf p) u

/-- Every element lies in the dequantizer's clamp range (R29, R116). -/
abbrev Block.InRange (F : Block) : Prop := ∀ p : Fin 64, -16384 ≤ F[p] ∧ F[p] ≤ 16383

/-- No AC coefficient: `F[i] = 0` for every i in 1..63 (R145). -/
abbrev Block.DcOnly (F : Block) : Prop := ∀ p : Fin 64, p ≠ 0 → F[p] = 0

/-- What R144 and R145 ask of a factorisation of IDCT_IMPL, and nothing more. -/
structure IdctConforms (norm : IdctNorm) (idct : Block → Block) : Prop where
  /-- R144: within 1 of the reference for every block in range. -/
  within_one : ∀ F : Block, F.InRange → ∀ p : Fin 64, |((idct F)[p] : ℝ) - sRef norm F p| ≤ 1
  /-- R145: under UNIT_DC a DC-only block is replicated exactly. -/
  dc_only_unit : norm = .unitDc → ∀ F : Block, F.DcOnly → ∀ p : Fin 64, (idct F)[p] = F[0]
  /-- R145: under JPEG the 64 outputs of a DC-only block are one integer. -/
  dc_only_jpeg : norm = .jpeg → ∀ F : Block, F.DcOnly → ∀ p : Fin 64, (idct F)[p] = (idct F)[0]

/-- What the spec asks of a choice of parameters: R105, R144, R145, and MAX_WORDS < 2^32 for the register map (R44, log 20). That an
instance accepts some stream of one word and some image of one pixel is log 21. -/
structure Params.Admissible (P : Params) : Prop where
  zigzag        : P.toTables.ZigzagOk
  /-- R241: every block meets R144 and R145, whichever factorisation serves its macroblock. -/
  idct_conforms : ∀ n, IdctConforms P.norm (P.idct n)
  maxWords_lt   : P.maxWords < 2 ^ 32
  maxWords_pos  : 0 < P.maxWords
  maxW_pos      : 0 < P.maxW
  maxH_pos      : 0 < P.maxH

/-- An element of a type that has one, of which nothing else is known: how the model leaves the instance's parameters open.
It has no body: nothing in Lean can evaluate it. -/
opaque Config.chosen (α : Type) [Inhabited α] : α

end Sys2Proof
end

