-- ==== Sys2Proof/Syntax.lean ====
section
/-! DEFINITION. The instructions: the four word classes of spec/opcode_table.json (30_encoding.md R76, R80), their fields pulled out
at decode, and the engine's sub-state, which selects the reading of a word (10_state.md R24). -/

namespace Sys2Proof

/-- The engine's sub-state inside DECODING (R24). -/
inductive Sub where
  | mbStart
  | expectDc
  | expectAc
  | blockEnd
  deriving DecidableEq, Repr

/-- The numeric encoding R24 gives SUB. -/
def Sub.code : Sub → Nat
  | .mbStart => 0
  | .expectDc => 1
  | .expectAc => 2
  | .blockEnd => 3

/-- One constructor per row of the opcode table. The fields are the word's bits, `[15:10]` and `[9:0]` (R71). -/
inductive Instr where
  /-- The stuffing word 0xFE00 before a block's DC word (R74, R110). -/
  | stuff
  /-- The DC word: quantization scale and amplitude (R71, R110). -/
  | dc (q : BitVec 6) (amp : BitVec 10)
  /-- The end-of-block marker 0xFE00 after a block's DC word (R74, R112). -/
  | eob
  /-- The AC word: zero-run length and amplitude (R71, R112). -/
  | ac (run : BitVec 6) (amp : BitVec 10)
  deriving DecidableEq, Repr

/-- The sub-state in which a word is read as this instruction (R76). -/
def Instr.context : Instr → Sub
  | .stuff => .expectDc
  | .dc _ _ => .expectDc
  | .eob => .expectAc
  | .ac _ _ => .expectAc

end Sys2Proof
end

