-- ==== Sys2Proof/WellFormed.lean ====
section
/-! DEFINITION. Which instructions have an encoding (spec 30_encoding.md R75, R80): the field pair that would read 0xFE00 has none. -/

namespace Sys2Proof

/-- The field pair (63, -512), which no DC or AC word can carry (R75). -/
abbrev sentinelFields (hi : BitVec 6) (lo : BitVec 10) : Bool := hi == 63#6 && lo == 0x200#10

/-- An instruction some word encodes: 'every pair except (63, -512)' (R80). -/
def Instr.wellFormed : Instr → Bool
  | .stuff => true
  | .dc q amp => !sentinelFields q amp
  | .eob => true
  | .ac run amp => !sentinelFields run amp

/-- The same as a proposition. -/
abbrev Instr.WellFormed (i : Instr) : Prop := i.wellFormed = true

end Sys2Proof
end

