-- ==== Sys2Proof/Decode.lean ====
section
/-! DEFINITION. Decoding of a 16-bit word by its context (spec 30_encoding.md R70 to R79), the encoder written from the same tables
(R80), and the forms the host asks for. -/

namespace Sys2Proof

/-- Why no instruction is read. -/
inductive DecodeError where
  /-- The engine reads no word in this sub-state (R76: MB_START, BLOCK_END). -/
  | noWordReadIn (sub : Sub)
  /-- Fewer than the two bytes of a word are left (R56: no half word is ever read). -/
  | halfWord (bytes : Nat)
  deriving DecidableEq, Repr

/-- The stuffing sentinel (R74). -/
def sentinel : Word := 0xFE00#16

/-- Bits [15:10] of a word (R71). -/
def hi6 (w : Word) : BitVec 6 := w.extractLsb' 10 6

/-- Bits [9:0] of a word (R71). -/
def lo10 (w : Word) : BitVec 10 := w.extractLsb' 0 10

/-- The word with these two fields (R80: `(hi << 10) | (lo & 0x3FF)`). -/
def packWord (hi : BitVec 6) (lo : BitVec 10) : Word := hi ++ lo

/-- The reading of a word in a sub-state: R76's table, the equality with the sentinel tested before any field is taken (R74). -/
def decode (sub : Sub) (w : Word) : Except DecodeError Instr :=
  match sub with
  | .mbStart => .error (.noWordReadIn .mbStart)
  | .expectDc => if w = sentinel then .ok .stuff else .ok (.dc (hi6 w) (lo10 w))
  | .expectAc => if w = sentinel then .ok .eob else .ok (.ac (hi6 w) (lo10 w))
  | .blockEnd => .error (.noWordReadIn .blockEnd)

/-- The word two bytes form, the first being the one at the lower offset (20_memory.md R52). -/
def wordOfBytes (order : ByteOrder) (b0 b1 : Byte) : Word :=
  match order with
  | .little => b1 ++ b0
  | .big => b0 ++ b1

/-- The words of a byte sequence from offset 0 (R52); a last odd byte forms no word (R56). -/
def wordsOfBytes (order : ByteOrder) : List Byte → List Word
  | b0 :: b1 :: rest => wordOfBytes order b0 b1 :: wordsOfBytes order rest
  | _ => []

/-- The next instruction of a byte sequence and the bytes after it. -/
def decodeBytes (order : ByteOrder) (sub : Sub) : List Byte → Except DecodeError (Instr × List Byte)
  | b0 :: b1 :: rest =>
    match decode sub (wordOfBytes order b0 b1) with
    | .ok i => .ok (i, rest)
    | .error e => .error e
  | short => .error (.halfWord short.length)

/-- The word that encodes an instruction (R80). -/
def encode : Instr → Word
  | .stuff => sentinel
  | .dc q amp => packWord q amp
  | .eob => sentinel
  | .ac run amp => packWord run amp

/-- The bytes that hold a word, in either byte order (R52). -/
def bytesOfWord (order : ByteOrder) (w : Word) : List Byte :=
  match order with
  | .little => [w.extractLsb' 0 8, w.extractLsb' 8 8]
  | .big => [w.extractLsb' 8 8, w.extractLsb' 0 8]

/-- What the decoder reads from a word numbered as spec/opcode_table.json numbers it. The table's words have no context of their
own: the word is read in EXPECT_DC, the context of a stream's first word (log 9). -/
def decodeTableWord (nbits w : Nat) : Option Instr :=
  if nbits ≤ 16 ∧ w < 2 ^ 16 then
    match decode .expectDc (BitVec.ofNat 16 w) with
    | .ok i => some i
    | .error _ => none
  else none

end Sys2Proof
end

