-- ==== Sys2Proof/Machine/State.lean ====
section
/-! DEFINITION. All state of the block as plain data (spec 10_state.md R20 to R36), the moves the host can make (R40 to R42, R230),
the reasons a step can stop, and the state after RESET (70_reset_and_hazards.md R231). -/

namespace Sys2Proof.Machine

/-- PHASE (R22). -/
inductive Phase where
  | idle
  | decoding
  | done
  | error
  deriving DecidableEq, Repr

/-- CAUSE, why the last decode stopped (R36, R200). Value 3 is never written, so it has no constructor. -/
inductive Cause where
  | none
  | endOfStream
  | invalidInputSize
  deriving DecidableEq, Repr

/-- What the host can do between two engine steps. `wait` is no operation: the engine takes its next step (log 6). -/
inductive HostMove where
  /-- No host operation before the next engine step. -/
  | wait
  /-- RESET (R230). -/
  | reset
  /-- START with the words and the sizes; N is the number of words. Sizes are signed, so that a negative one can be refused (D14). -/
  | start (words : List Word) (w h : Int)
  /-- START_BYTES with L bytes (R40). -/
  | startBytes (bytes : List Byte) (w h : Int)
  /-- READ_STATUS (R41). -/
  | readStatus
  /-- READ_IMAGE of one index (R42). -/
  | readImage (i : Nat)
  deriving DecidableEq, Repr

/-- What a read hands to the host: the registers of R44, or one image byte (R42). -/
inductive HostReply where
  | status (status np cursor : BitVec 32)
  | byte (b : Byte)
  deriving DecidableEq, Repr

/-- The image space as (address, byte) cells in one canonical form (`Memory.wf`). -/
abbrev Memory := List Host.Cell

/-- What an address no cell lists reads as: the 0 of START's zero fill (R180; before any START, log 2). -/
def unlistedByte : Byte := 0#8

/-- The canonical form: addresses strictly rising, and no cell that holds what an unlisted address reads as. -/
abbrev Memory.wf (m : Memory) : Prop :=
  m.Pairwise (fun c d => c.1 < d.1) ∧ ∀ c ∈ m, c.2 ≠ unlistedByte

/-- Everything the spec gives the machine, and the host's pending moves and last reply, which are the model's own (log 6). -/
structure State where
  /-- WORDS[0..N-1]; N is its length (R20, log 11). -/
  words  : List Word
  /-- W (R20). -/
  w      : Nat
  /-- H (R20). -/
  h      : Nat
  /-- PHASE (R22). -/
  phase  : Phase
  /-- CAUSE (R36). -/
  cause  : Cause
  /-- CURSOR, the program counter (R23). -/
  cursor : Nat
  /-- SUB (R24). -/
  sub    : Sub
  /-- BLK (R25, log 16). -/
  blk    : Fin 6
  /-- K, 7 bits (R27). -/
  k      : BitVec 7
  /-- Q, 6 bits (R28). -/
  q      : BitVec 6
  /-- COEF (R29). -/
  coef   : Block
  /-- SPAT (R30). -/
  spat   : Block
  /-- CRBUF (R31). -/
  crbuf  : Block
  /-- CBBUF (R31). -/
  cbbuf  : Block
  /-- PATCH (R32). -/
  patch  : Patch
  /-- PLIST, in the order macroblocks were attempted (R33). -/
  plist  : List Patch
  /-- NP (R33). -/
  np     : Nat
  /-- IMAGE (R34). -/
  image  : Memory
  /-- The host's moves still to come (log 6). -/
  moves  : List HostMove
  /-- What the last host read answered (log 6). -/
  reply  : Option HostReply
  deriving DecidableEq, Repr

/-- N, the stream bound: the number of words (R20). -/
def State.n (s : State) : Nat := s.words.length

/-- Why the machine would stop with a fault. -/
inductive Fault where
  /-- Raised by `readWord` (Machine/Engine.lean) if the decoder had no reading for a word the engine fetched. R78 says every word
  has one, so no step raises it. Safe: it could only stop a run. -/
  | wordWithoutReading (w : Word)
  deriving DecidableEq, Repr

/-- Inputs outside the hardware's meaning, each refused by name (60_exceptions.md R208). -/
inductive Refusal where
  /-- An instruction with no meaning yet, raised by exec's arms. Safe: it only stops a run. -/
  | notModelled (mnemonic : String)
  /-- START or START_BYTES while PHASE = DECODING, raised by `startMove` (R40, R208). Safe. -/
  | startWhileDecoding
  /-- START with N > MAX_WORDS, W > MAX_W or H > MAX_H, raised by `startMove` (R208, R207). Safe. -/
  | startTooLarge
  /-- READ_IMAGE in IDLE, DECODING or ERROR, raised by `readImageMove` (R42, R208). Safe. -/
  | readImageOutsideDone
  /-- READ_IMAGE(i) with i ≥ W*H*3, raised by `readImageMove` (R42, R208). Safe. -/
  | readImageOutOfRange
  /-- A table that is not 64 entries in 0..255, raised by `configure` (R9, R208). Safe. -/
  | tableNotAdmissible
  /-- A ZZ that breaks R105, raised by `configure` (R105, R208). Safe. -/
  | zigzagNotAdmissible
  deriving DecidableEq, Repr

/-- The state after RESET: R231's values, and for what R231 leaves unspecified the values of log 1. -/
def State.reset : State where
  words  := []
  w      := 0
  h      := 0
  phase  := .idle
  cause  := .none
  cursor := 0
  sub    := .mbStart
  blk    := 0
  k      := 0
  q      := 0
  coef   := Block.zero
  spat   := Block.zero
  crbuf  := Block.zero
  cbbuf  := Block.zero
  patch  := Patch.zero
  plist  := []
  np     := 0
  image  := []
  moves  := []
  reply  := none

end Sys2Proof.Machine
end

