-- ==== Sys2Proof/Machine/Operands.lean ====
section
/-! DEFINITION. The operand forms of a word and the arithmetic primitives of the spec (00_scope.md R12; 30_encoding.md R72;
42_color_conversion.md R163 to R165). -/

namespace Sys2Proof.Machine

/-- `clamp(v, lo, hi)` (R12). -/
def clamp (v lo hi : Int) : Int := min hi (max lo v)

/-- `a >> s` on a signed integer: `floor(a / 2^s)` (R12, D8). -/
def asr (a : Int) (s : Nat) : Int := a / 2 ^ s

/-- The 6-bit field of a word as q or run: zero-extended, 0..63 (R72). -/
def zext6 (f : BitVec 6) : Nat := f.toNat

/-- The 10-bit field of a word as an amplitude: sign-extended, -512..511 (R72). -/
def sext10 (f : BitVec 10) : Int := f.toInt

/-- `sext_9` of an integer of any size: its low 9 bits as a signed value (R164). -/
def sext9 (v : Int) : Int := if v % 512 < 256 then v % 512 else v % 512 - 512

/-- `TOINT(n, d)` for d > 0 (R163). -/
def toInt (mode : ColorToInt) (n d : Int) : Int :=
  match mode with
  | .trunc => Int.tdiv n d
  | .floor => n / d
  | .nearest => (2 * n + d) / (2 * d)

/-- `(t & 0xFF) XOR 0x80` (R165, R167). -/
def flipByte (t : Int) : Byte := BitVec.ofInt 8 t ^^^ 0x80#8

end Sys2Proof.Machine
end

