-- ==== Sys2Proof/Machine/Flags.lean ====
section
/-! DEFINITION. The block's status: the codes of PHASE and CAUSE and the STATUS word (spec 10_state.md R22, R36, R44). CAUSE is the
only flag; no condition code exists (R36). -/

namespace Sys2Proof.Machine

/-- The code of a phase (R22). -/
def phaseCode : Phase → BitVec 2
  | .idle => 0
  | .decoding => 1
  | .done => 2
  | .error => 3

/-- The code of a cause (R36, R200). -/
def causeCode : Cause → BitVec 2
  | .none => 0
  | .endOfStream => 1
  | .invalidInputSize => 2

/-- STATUS: PHASE in [1:0], CAUSE in [3:2], [31:4] read 0 (R44). -/
def statusWord (s : State) : BitVec 32 := 0#28 ++ causeCode s.cause ++ phaseCode s.phase

end Sys2Proof.Machine
end

