-- ==== Sys2Proof/Machine/Dequantizer.lean ====
section
/-! DEFINITION. The sub-unit dequantizer_lut: the tables, their choice by block, the two dequantizers, and the check an instance's
tables pass at configuration (spec 10_state.md R25, R26; 40_block_decoder.md R103 to R105, R111, R113; 60_exceptions.md R208). -/

namespace Sys2Proof.Machine

/-- `TBL(BLK)`: the chroma table for Cr and Cb, the luma table for the four Y blocks (R25, R26). -/
def tableOf (T : Tables) (blk : Fin 6) : Vector Byte 64 := if blk.val < 2 then T.qtC else T.qtY

/-- Entry p of `TBL(BLK)` as an integer in 0..255 (R103). -/
def tableEntry (T : Tables) (blk : Fin 6) (p : Fin 64) : Int := ((tableOf T blk)[p].toNat : Int)

/-- The clamp of both dequantizers to the 16-bit container's range (R111, R113, R116). -/
def clampCoef (v : Int) : Int := clamp v (-16384) 16383

/-- The DC dequantizer `dq_dc(amp, t0)` (R111). -/
def dqDc (amp t0 : Int) : Int :=
  clampCoef (if t0 = 0 then amp * 2 else amp * t0)

/-- The AC dequantizer `dq_ac(amp, e, q)` (R113). -/
def dqAc (amp e q : Int) : Int :=
  clampCoef (if e * q = 0 then amp * 2 else asr (amp * e * q + 4) 3)

/-- The standard zigzag scan, the default ZZ (R104). -/
def defaultZigzag : Vector (Fin 64) 64 :=
  #v[ 0,  1,  8, 16,  9,  2,  3, 10, 17, 24, 32, 25, 18, 11,  4,  5,
     12, 19, 26, 33, 40, 48, 41, 34, 27, 20, 13,  6,  7, 14, 21, 28,
     35, 42, 49, 56, 57, 50, 43, 36, 29, 22, 15, 23, 30, 37, 44, 51,
     58, 59, 52, 45, 38, 31, 39, 46, 53, 60, 61, 54, 47, 55, 62, 63]

/-- 64 integers in 0..255 as a quantization table (R9, R103). -/
def quantTable? (xs : List Int) : Option (Vector Byte 64) :=
  if h : xs.length = 64 then
    if xs.all fun x => 0 ≤ x ∧ x ≤ 255 then some ⟨(xs.map (BitVec.ofInt 8)).toArray, by simp [h]⟩ else none
  else none

/-- 64 integers in 0..63 as a candidate ZZ (R104). -/
def zigzag? (xs : List Int) : Option (Vector (Fin 64) 64) :=
  if h : xs.length = 64 then
    if xs.all fun x => 0 ≤ x ∧ x ≤ 63 then some ⟨(xs.map fun x => Fin.ofNat 64 x.toNat).toArray, by simp [h]⟩ else none
  else none

/-- Configuration of an instance's table ROM: refused where an entry is outside 0..255 or ZZ breaks R105 (R208). -/
def configure (qtY qtC zz : List Int) : Except Refusal Tables :=
  match quantTable? qtY, quantTable? qtC, zigzag? zz with
  | some y, some c, some z =>
    if Tables.ZigzagOk ⟨y, c, z⟩ then .ok ⟨y, c, z⟩ else .error .zigzagNotAdmissible
  | some _, some _, none => .error .zigzagNotAdmissible
  | _, _, _ => .error .tableNotAdmissible

end Sys2Proof.Machine
end

