-- ==== Sys2Proof/Machine/Transform.lean ====
section
/-! DEFINITION. The inverse transform (spec 41_inverse_transform.md): an integer transform in the two passes of R143 that a
machine can run, and the spec's default IDCT_DEFAULT (R146) as a real-valued definition. The machine itself uses whatever IDCT_IMPL its parameters hold (log 4); that
the integer transform is such a one is shown in TransformConforms.lean. -/

namespace Sys2Proof.Machine

/-- `√2·cos(rπ/16)` for r = 0..8, scaled by 2^192 and rounded: the magnitudes of the UNIT_DC basis table of R151 (log 5). -/
def cosTable : Nat → Int
  | 0 => 8877162406579534828678351183397059828045242093918884417690
  | 1 => 8706590220122125093386175281514534847929938391725131710953
  | 2 => 8201428654217469928780161678461125167725896930936707664898
  | 3 => 7381090784545415276027188079216205757810829555420711401983
  | 4 => 6277101735386680763835789423207666416102355444464034512896
  | 5 => 4931887186776245030372827540576077703784625672639477341124
  | 6 => 3397142979412196965816752303784536853152597240820363233130
  | 7 => 1731848472489069621363114205765224098624652002798664219500
  | _ => 0

/-- The UNIT_DC basis value B[n][u] of R151 scaled by 2^192: the angle (2n+1)uπ/16 is folded into the first quadrant. -/
def scaledBasis (n u : Fin 8) : Int :=
  if u = 0 then 2 ^ 192
  else
    let m := (2 * n.val + 1) * u.val % 32
    let r := if m ≤ 16 then m else 32 - m
    if r ≤ 8 then cosTable r else -cosTable (16 - r)

/-- One 1-D pass on 8 values (R141), exact but for the scale of 2^192. -/
def idctPass (X : Fin 8 → Int) (n : Fin 8) : Int :=
  scaledBasis n 0 * X 0 + scaledBasis n 1 * X 1 + scaledBasis n 2 * X 2 + scaledBasis n 3 * X 3 +
    scaledBasis n 4 * X 4 + scaledBasis n 5 * X 5 + scaledBasis n 6 * X 6 + scaledBasis n 7 * X 7

/-- Pass 1 of R143: every row of the block. -/
def idctRows (F : Block) : Block :=
  Vector.ofFn fun p => idctPass (fun u => F[natPos (rowOf p) u]) (colOf p)

/-- Pass 2 of R143: every column of what pass 1 left. -/
def idctColumns (T : Block) : Block :=
  Vector.ofFn fun p => idctPass (fun v => T[natPos v (colOf p)]) (rowOf p)

/-- The scale two passes leave: 2^384, and 8 more under JPEG, whose every basis value is 1/(2√2) of the UNIT_DC one (R151). -/
def idctScale : IdctNorm → Int
  | .unitDc => 2 ^ 192 * 2 ^ 192
  | .jpeg => 2 ^ 192 * 2 ^ 192 * 8

/-- `z / d` to the nearest integer, halves toward +∞ (R146). -/
def roundDiv (z d : Int) : Int := (2 * z + d) / (2 * d)

/-- The integer transform: rows, columns, one rounding at the end (R143, R146). -/
def idctFixed (norm : IdctNorm) (F : Block) : Block :=
  let S := idctColumns (idctRows F)
  Vector.ofFn fun p => roundDiv S[p] (idctScale norm)

/-- `IDCT_DEFAULT` of R146, both arms as the spec writes them, in real arithmetic. No step computes it (log 5). Under JPEG the first arm
breaks R144, so no admissible instance takes it there (log 26). -/
noncomputable def idctDefault (norm : IdctNorm) (F : Block) (p : Fin 64) : ℤ :=
  if F.DcOnly then F[0] else ⌊sRef norm F p + 1 / 2⌋

end Sys2Proof.Machine
end

