-- ==== Sys2Proof/Machine/TransformConforms.lean ====
section
/-! DEFINITION. The integer transform of Transform.lean conforms to what spec 41_inverse_transform.md R144 and R145 ask of IDCT_IMPL,
under both normalisations, and is IDCT_DEFAULT (R146) away from half-integers. It stands here, not under Laws, because the
machine's opaque parameters (Params.lean) need an admissible choice to exist. -/

namespace Sys2Proof.Machine

theorem abs_sub_le_of_sq {x y t e : ℝ} (hx : 0 ≤ x) (hxy : x ^ 2 = y) (ht : 0 ≤ t - e) (he : 0 ≤ e)
    (h1 : (t - e) ^ 2 ≤ y) (h2 : y ≤ (t + e) ^ 2) : |x - t| ≤ e := by
  subst hxy
  have a := (sq_le_sq₀ ht hx).1 h1
  have b := (sq_le_sq₀ hx (by linarith)).1 h2
  rw [abs_le]
  constructor <;> linarith

/-- `2^192·√2·cos(rπ/16)`, the exact value behind `cosTable r`. -/
noncomputable def cosVal (r : ℕ) : ℝ := 2 ^ 192 * (√2 * Real.cos (r * Real.pi / 16))

theorem cosVal_sq (r : ℕ) : cosVal r ^ 2 = 2 ^ 192 * 2 ^ 192 + cosVal (2 * r) * (2 ^ 192 * √2) / 2 := by
  have h2 : √2 ^ 2 = (2 : ℝ) := Real.sq_sqrt (by norm_num)
  have e : ((2 * r : ℕ) : ℝ) * Real.pi / 16 = 2 * (r * Real.pi / 16) := by push_cast; ring
  simp only [cosVal]
  rw [e, Real.cos_two_mul, mul_pow, mul_pow, h2]
  linear_combination (-1 / 2 * 2 ^ 192 * 2 ^ 192 * (2 * Real.cos (r * Real.pi / 16) ^ 2 - 1)) * h2

theorem cosVal_reflect (r : ℕ) (h : r ≤ 16) : cosVal (16 - r) = -cosVal r := by
  have e : ((16 - r : ℕ) : ℝ) * Real.pi / 16 = Real.pi - r * Real.pi / 16 := by
    push_cast [h]; ring
  simp only [cosVal]
  rw [e, Real.cos_pi_sub, mul_neg, mul_neg]

theorem cosVal_nonneg (r : ℕ) (h : r ≤ 8) : 0 ≤ cosVal r := by
  have hr : (r : ℝ) ≤ 8 := by exact_mod_cast h
  have hp := Real.pi_pos
  have h0 : (0 : ℝ) ≤ r := Nat.cast_nonneg r
  refine mul_nonneg (by norm_num) (mul_nonneg (Real.sqrt_nonneg _) (Real.cos_nonneg_of_mem_Icc ⟨?_, ?_⟩))
  · have : 0 ≤ r * Real.pi / 16 := by positivity
    linarith
  · nlinarith

theorem cosVal_four : cosVal 4 = 2 ^ 192 := by
  have h2 : √2 * √2 = (2 : ℝ) := Real.mul_self_sqrt (by norm_num)
  have e : ((4 : ℕ) : ℝ) * Real.pi / 16 = Real.pi / 4 := by push_cast; ring
  simp only [cosVal]
  rw [e, Real.cos_pi_div_four]
  linarith

theorem cosVal_eight : cosVal 8 = 0 := by
  have e : ((8 : ℕ) : ℝ) * Real.pi / 16 = Real.pi / 2 := by push_cast; ring
  simp only [cosVal]
  rw [e, Real.cos_pi_div_two, mul_zero, mul_zero]

theorem mul_near {x y a b e : ℝ} (hx : |x - a| ≤ e) (hy : |y - b| ≤ e) (ha : 0 ≤ a - e) (hb : 0 ≤ b - e) :
    (a - e) * (b - e) ≤ x * y ∧ x * y ≤ (a + e) * (b + e) := by
  obtain ⟨h1, h2⟩ := abs_le.1 hx
  obtain ⟨h3, h4⟩ := abs_le.1 hy
  exact ⟨mul_le_mul (by linarith) (by linarith) hb (by linarith),
    mul_le_mul (by linarith) (by linarith) (by linarith) (by linarith)⟩

theorem cosVal_near (r : ℕ) (h : r ≤ 8) {N e : ℝ} (he : 0 ≤ e) (hN : 0 ≤ N - e)
    (h1 : (N - e) ^ 2 ≤ 2 ^ 192 * 2 ^ 192 + cosVal (2 * r) * (2 ^ 192 * √2) / 2)
    (h2 : 2 ^ 192 * 2 ^ 192 + cosVal (2 * r) * (2 ^ 192 * √2) / 2 ≤ (N + e) ^ 2) : |cosVal r - N| ≤ e :=
  abs_sub_le_of_sq (cosVal_nonneg r h) (cosVal_sq r) hN he h1 h2

theorem cosTable_near (r : ℕ) (h : r ≤ 8) : |cosVal r - cosTable r| ≤ 4 := by
  have w : |2 ^ 192 * √2 - cosTable 0| ≤ 1 := by
    refine abs_sub_le_of_sq (y := 2 * (2 ^ 192 * 2 ^ 192)) (by positivity) ?_ ?_ ?_ ?_ ?_ <;> norm_num [cosTable]
    rw [mul_pow, Real.sq_sqrt (by norm_num)]; norm_num
  have w' := abs_le.1 w
  have c12 : cosVal 12 = -2 ^ 192 := by rw [show 12 = 16 - 4 from rfl, cosVal_reflect 4 (by norm_num), cosVal_four]
  have x2 : |cosVal 2 - cosTable 2| ≤ 1 := by
    refine cosVal_near 2 (by norm_num) ?_ ?_ ?_ ?_ <;> norm_num [cosVal_four, cosTable] at w' ⊢ <;> linarith [w'.1, w'.2]
  have x6 : |cosVal 6 - cosTable 6| ≤ 1 := by
    refine cosVal_near 6 (by norm_num) ?_ ?_ ?_ ?_ <;> norm_num [c12, cosTable] at w' ⊢ <;> linarith [w'.1, w'.2]
  have m2 := mul_near x2 w (by norm_num [cosTable]) (by norm_num [cosTable])
  have m6 := mul_near x6 w (by norm_num [cosTable]) (by norm_num [cosTable])
  have c10 : cosVal 10 = -cosVal 6 := cosVal_reflect 6 (by norm_num)
  have c14 : cosVal 14 = -cosVal 2 := cosVal_reflect 2 (by norm_num)
  have x1 : |cosVal 1 - cosTable 1| ≤ 4 := by
    refine cosVal_near 1 (by norm_num) ?_ ?_ ?_ ?_ <;> norm_num [cosTable] at m2 ⊢ <;> linarith [m2.1, m2.2]
  have x3 : |cosVal 3 - cosTable 3| ≤ 4 := by
    refine cosVal_near 3 (by norm_num) ?_ ?_ ?_ ?_ <;> norm_num [cosTable] at m6 ⊢ <;> linarith [m6.1, m6.2]
  have x5 : |cosVal 5 - cosTable 5| ≤ 4 := by
    refine cosVal_near 5 (by norm_num) ?_ ?_ ?_ ?_ <;> norm_num [cosTable, c10] at m6 ⊢ <;> linarith [m6.1, m6.2]
  have x7 : |cosVal 7 - cosTable 7| ≤ 4 := by
    refine cosVal_near 7 (by norm_num) ?_ ?_ ?_ ?_ <;> norm_num [cosTable, c14] at m2 ⊢ <;> linarith [m2.1, m2.2]
  interval_cases r
  · simpa [cosVal] using w.trans (by norm_num)
  · exact x1
  · exact x2.trans (by norm_num)
  · exact x3
  · norm_num [cosVal_four, cosTable]
  · exact x5
  · exact x6.trans (by norm_num)
  · exact x7
  · norm_num [cosVal_eight, cosTable]

theorem cosVal_period (k : ℕ) : cosVal (k % 32) = cosVal k := by
  have e : (k : ℝ) * Real.pi / 16 = (k % 32 : ℕ) * Real.pi / 16 + (k / 32 : ℕ) * (2 * Real.pi) := by
    have := Nat.mod_add_div k 32
    have h : (k : ℝ) = (k % 32 : ℕ) + 32 * (k / 32 : ℕ) := by exact_mod_cast this.symm
    conv_lhs => rw [h]
    ring
  simp only [cosVal]
  rw [e, Real.cos_add_nat_mul_two_pi]

theorem cosVal_mirror (m : ℕ) (h : m ≤ 32) : cosVal (32 - m) = cosVal m := by
  have e : ((32 - m : ℕ) : ℝ) * Real.pi / 16 = 2 * Real.pi - m * Real.pi / 16 := by
    push_cast [h]; ring
  simp only [cosVal]
  rw [e, Real.cos_two_pi_sub]

theorem scaledBasis_near (n u : Fin 8) : |2 ^ 192 * dctBasis .unitDc n u - scaledBasis n u| ≤ 4 := by
  by_cases hu : u = 0
  · norm_num [hu, dctBasis, dctWeight, scaledBasis]
  have hk : 2 ^ 192 * dctBasis .unitDc n u = cosVal ((2 * n.val + 1) * u.val) := by
    simp only [dctBasis, dctWeight, hu, if_false, cosVal]
    push_cast
    rfl
  rw [hk, ← cosVal_period, scaledBasis, if_neg hu]
  have hm : (2 * n.val + 1) * u.val % 32 < 32 := Nat.mod_lt _ (by norm_num)
  generalize (2 * n.val + 1) * u.val % 32 = m at hm
  obtain ⟨r, hr, hr16, hv⟩ : ∃ r, (if m ≤ 16 then m else 32 - m) = r ∧ r ≤ 16 ∧ cosVal m = cosVal r := by
    refine ⟨_, rfl, ?_, ?_⟩ <;> split
    · assumption
    · omega
    · rfl
    · exact (cosVal_mirror m hm.le).symm
  simp only [hr, hv]
  split
  · exact cosTable_near r ‹_›
  · have h2 := cosTable_near (16 - r) (by omega)
    have h3 := cosVal_reflect (16 - r) (by omega)
    rw [show 16 - (16 - r) = r by omega] at h3
    rw [h3, Int.cast_neg, neg_sub_neg, abs_sub_comm]
    exact h2

theorem dctBasis_le (n u : Fin 8) : |dctBasis .unitDc n u| ≤ 3 / 2 := by
  have hs : √2 ≤ 3 / 2 := Real.sqrt_le_iff.2 ⟨by norm_num, by norm_num⟩
  have hw : |dctWeight .unitDc u| ≤ 3 / 2 := by
    simp only [dctWeight]
    split
    · norm_num
    · rwa [abs_of_nonneg (Real.sqrt_nonneg 2)]
  rw [dctBasis, abs_mul]
  calc _ ≤ 3 / 2 * 1 := mul_le_mul hw (Real.abs_cos_le_one _) (abs_nonneg _) (by norm_num)
    _ = _ := by norm_num

theorem idctPass_eq_sum (X : Fin 8 → Int) (n : Fin 8) : idctPass X n = ∑ u, scaledBasis n u * X u := by
  simp only [idctPass, Fin.sum_univ_eight]

theorem idctColumns_idctRows (F : Block) (p : Fin 64) :
    (idctColumns (idctRows F))[p] = ∑ v, ∑ u, F[natPos v u] * scaledBasis (rowOf p) v * scaledBasis (colOf p) u := by
  have hp : ∀ v x : Fin 8, rowOf (natPos v x) = v ∧ colOf (natPos v x) = x := by
    intro v x
    constructor <;> ext <;> simp only [rowOf, colOf, natPos] <;> omega
  simp only [idctColumns, idctRows, Fin.getElem_fin, Vector.getElem_ofFn, idctPass_eq_sum, Finset.mul_sum, Fin.eta, hp]
  refine Finset.sum_congr rfl fun v _ => Finset.sum_congr rfl fun u _ => ?_
  ring

/-- The scaled integer sums of the two passes are the reference to within 2^-168. -/
theorem idctPasses_near (F : Block) (hF : F.InRange) (p : Fin 64) :
    |((idctColumns (idctRows F))[p] : ℝ) / (2 ^ 192 * 2 ^ 192) - sRef .unitDc F p| ≤ 1 / 2 ^ 168 := by
  have hterm : ∀ v u : Fin 8, |(F[natPos v u] : ℝ) * scaledBasis (rowOf p) v * scaledBasis (colOf p) u / (2 ^ 192 * 2 ^ 192) -
      (F[natPos v u] : ℝ) * dctBasis .unitDc (rowOf p) v * dctBasis .unitDc (colOf p) u| ≤ 1 / 2 ^ 174 := by
    intro v u
    obtain ⟨f1, f2⟩ := hF (natPos v u)
    have hf : |(F[natPos v u] : ℝ)| ≤ 16384 := by
      rw [abs_le]
      exact ⟨by exact_mod_cast f1, by exact_mod_cast (f2.trans (by norm_num))⟩
    have d1 := scaledBasis_near (rowOf p) v
    have d2 := scaledBasis_near (colOf p) u
    have b1 := dctBasis_le (rowOf p) v
    have b2 := dctBasis_le (colOf p) u
    generalize (F[natPos v u] : ℝ) = f at *
    generalize dctBasis .unitDc (rowOf p) v = a at *
    generalize dctBasis .unitDc (colOf p) u = b at *
    generalize (scaledBasis (rowOf p) v : ℝ) = x at *
    generalize (scaledBasis (colOf p) u : ℝ) = y at *
    obtain ⟨d, rfl⟩ : ∃ d, x = 2 ^ 192 * (a + d) := ⟨x / 2 ^ 192 - a, by field_simp; ring⟩
    obtain ⟨e, rfl⟩ : ∃ e, y = 2 ^ 192 * (b + e) := ⟨y / 2 ^ 192 - b, by field_simp; ring⟩
    have hd : |d| ≤ 4 / 2 ^ 192 := by
      rw [show 2 ^ 192 * a - 2 ^ 192 * (a + d) = -(2 ^ 192 * d) by ring, abs_neg, abs_mul, abs_of_pos (by norm_num)] at d1
      rw [le_div_iff₀ (by norm_num)]; linarith
    have he : |e| ≤ 4 / 2 ^ 192 := by
      rw [show 2 ^ 192 * b - 2 ^ 192 * (b + e) = -(2 ^ 192 * e) by ring, abs_neg, abs_mul, abs_of_pos (by norm_num)] at d2
      rw [le_div_iff₀ (by norm_num)]; linarith
    rw [show f * (2 ^ 192 * (a + d)) * (2 ^ 192 * (b + e)) / (2 ^ 192 * 2 ^ 192) - f * a * b = f * (a * e + d * (b + e)) by
      field_simp; ring, abs_mul]
    have hbe : |b + e| ≤ 2 := (abs_add_le _ _).trans (by linarith [he, show (4 : ℝ) / 2 ^ 192 ≤ 1 / 2 by norm_num])
    have hs : |a * e + d * (b + e)| ≤ 14 / 2 ^ 192 := by
      refine (abs_add_le _ _).trans ?_
      rw [abs_mul, abs_mul]
      have i1 := mul_le_mul b1 he (abs_nonneg e) (by norm_num)
      have i2 := mul_le_mul hd hbe (abs_nonneg (b + e)) (by norm_num)
      refine (add_le_add i1 i2).trans ?_
      norm_num
    refine (mul_le_mul hf hs (abs_nonneg _) (by norm_num)).trans ?_
    norm_num
  rw [idctColumns_idctRows, sRef]
  push_cast
  rw [Finset.sum_div, ← Finset.sum_sub_distrib]
  refine (Finset.abs_sum_le_sum_abs _ _).trans ?_
  have hrow : ∀ v : Fin 8, |(∑ u, (F[natPos v u] : ℝ) * scaledBasis (rowOf p) v * scaledBasis (colOf p) u) / (2 ^ 192 * 2 ^ 192) -
      ∑ u, (F[natPos v u] : ℝ) * dctBasis .unitDc (rowOf p) v * dctBasis .unitDc (colOf p) u| ≤ 1 / 2 ^ 171 := by
    intro v
    rw [Finset.sum_div, ← Finset.sum_sub_distrib]
    refine (Finset.abs_sum_le_sum_abs _ _).trans ((Finset.sum_le_sum fun u _ => hterm v u).trans ?_)
    rw [Finset.sum_const, Finset.card_univ, Fintype.card_fin]
    norm_num
  refine (Finset.sum_le_sum fun v _ => hrow v).trans ?_
  rw [Finset.sum_const, Finset.card_univ, Fintype.card_fin]
  norm_num

theorem sRef_jpeg (F : Block) (p : Fin 64) : sRef .jpeg F p = sRef .unitDc F p / 8 := by
  have h2 : √2 * √2 = (2 : ℝ) := Real.mul_self_sqrt (by norm_num)
  have h0 : √2 ≠ (0 : ℝ) := by positivity
  have hb : ∀ n u, dctBasis .jpeg n u = dctBasis .unitDc n u / (2 * √2) := by
    intro n u
    simp only [dctBasis, dctWeight]
    split
    · ring
    · field_simp
  simp only [sRef, hb, Finset.sum_div]
  refine Finset.sum_congr rfl fun v _ => Finset.sum_congr rfl fun u _ => ?_
  rw [mul_div_assoc', mul_div_assoc', div_mul_eq_mul_div, div_div, show 2 * √2 * (2 * √2) = 8 by linear_combination 4 * h2]

theorem roundDiv_near (z d : Int) (hd : 0 < d) : |(roundDiv z d : ℝ) - z / d| ≤ 1 / 2 := by
  have h1 := Int.emod_add_mul_ediv (2 * z + d) (2 * d)
  have h2 := Int.emod_nonneg (2 * z + d) (show 2 * d ≠ 0 by omega)
  have h3 := Int.emod_lt_of_pos (2 * z + d) (show 0 < 2 * d by omega)
  simp only [roundDiv]
  generalize (2 * z + d) / (2 * d) = q at *
  generalize (2 * z + d) % (2 * d) = r at *
  have hdr : (0 : ℝ) < d := by exact_mod_cast hd
  have e : (r : ℝ) + 2 * d * q = 2 * z + d := by exact_mod_cast h1
  have r0 : (0 : ℝ) ≤ r := by exact_mod_cast h2
  have r1 : (r : ℝ) ≤ 2 * d := by exact_mod_cast h3.le
  have : (q : ℝ) - z / d = (d - r) / (2 * d) := by
    field_simp; linarith
  rw [this, abs_div, abs_of_pos (show (0 : ℝ) < 2 * d by linarith), div_le_iff₀ (by linarith), abs_le]
  constructor <;> linarith

theorem idctFixed_near (norm : IdctNorm) (F : Block) (hF : F.InRange) (p : Fin 64) :
    |((idctFixed norm F)[p] : ℝ) - sRef norm F p| ≤ 1 := by
  have hn := idctPasses_near F hF p
  simp only [idctFixed, Fin.getElem_fin, Vector.getElem_ofFn] at hn ⊢
  generalize ((idctColumns (idctRows F))[p.val]) = z at *
  cases norm with
  | unitDc =>
    have hr := roundDiv_near z (idctScale .unitDc) (by norm_num [idctScale])
    have hs : ((idctScale .unitDc : Int) : ℝ) = 2 ^ 192 * 2 ^ 192 := by norm_num [idctScale]
    rw [hs] at hr
    refine (abs_sub_le _ ((z : ℝ) / (2 ^ 192 * 2 ^ 192)) _).trans ((add_le_add hr hn).trans ?_)
    norm_num
  | jpeg =>
    have hr := roundDiv_near z (idctScale .jpeg) (by norm_num [idctScale])
    have hs : ((idctScale .jpeg : Int) : ℝ) = 2 ^ 192 * 2 ^ 192 * 8 := by norm_num [idctScale]
    rw [hs, ← div_div] at hr
    rw [sRef_jpeg]
    generalize (z : ℝ) / (2 ^ 192 * 2 ^ 192) = w at *
    have : |w / 8 - sRef .unitDc F p / 8| ≤ 1 / 2 := by
      rw [← sub_div, abs_div, abs_of_pos (show (0 : ℝ) < 8 by norm_num), div_le_iff₀ (by norm_num)]
      exact hn.trans (by norm_num)
    exact (abs_sub_le _ (w / 8) _).trans (by linarith)

theorem idctColumns_dcOnly (F : Block) (hF : F.DcOnly) (p : Fin 64) :
    (idctColumns (idctRows F))[p] = F[0] * (2 ^ 192 * 2 ^ 192) := by
  rw [idctColumns_idctRows]
  have hz : ∀ v u : Fin 8, (v, u) ≠ (0, 0) → F[natPos v u] = 0 := by
    intro v u h
    refine hF _ fun hp => h ?_
    have := congrArg Fin.val hp
    simp only [natPos, Fin.val_zero] at this
    ext <;> simp <;> omega
  rw [Finset.sum_eq_single 0, Finset.sum_eq_single 0]
  · simp [scaledBasis, natPos, mul_assoc]
  · intro u _ hu
    rw [hz 0 u (by simpa using hu)]; simp
  · simp
  · intro v _ hv
    refine Finset.sum_eq_zero fun u _ => ?_
    rw [hz v u (by simp [hv])]; simp
  · simp

theorem roundDiv_mul (a d : Int) (hd : 0 < d) : roundDiv (a * d) d = a := by
  have : 2 * (a * d) + d = d + 2 * d * a := by ring
  rw [roundDiv, this, Int.add_mul_ediv_left _ _ (by omega), Int.ediv_eq_zero_of_lt (by omega) (by omega)]
  simp

/-- The integer transform meets R144 and R145 under both normalisations. -/
theorem idctFixed_conforms (norm : IdctNorm) : IdctConforms norm (idctFixed norm) where
  within_one := idctFixed_near norm
  dc_only_unit := by
    rintro rfl F hF p
    have h := idctColumns_dcOnly F hF p
    simp only [idctFixed, Fin.getElem_fin, Vector.getElem_ofFn] at h ⊢
    rw [h]
    exact roundDiv_mul _ _ (by norm_num [idctScale])
  dc_only_jpeg := by
    rintro rfl F hF p
    have h := idctColumns_dcOnly F hF p
    have h0 := idctColumns_dcOnly F hF 0
    simp only [idctFixed, Fin.getElem_fin, Vector.getElem_ofFn] at h h0 ⊢
    rw [h]
    exact congrArg (roundDiv · _) h0.symm

theorem roundDiv_bounds (z d : Int) (hd : 0 < d) :
    (roundDiv z d : ℝ) ≤ z / d + 1 / 2 ∧ (z : ℝ) / d + 1 / 2 < roundDiv z d + 1 := by
  have h1 := Int.emod_add_mul_ediv (2 * z + d) (2 * d)
  have h2 := Int.emod_nonneg (2 * z + d) (show 2 * d ≠ 0 by omega)
  have h3 := Int.emod_lt_of_pos (2 * z + d) (show 0 < 2 * d by omega)
  simp only [roundDiv]
  generalize (2 * z + d) / (2 * d) = q at *
  generalize (2 * z + d) % (2 * d) = r at *
  have hdr : (0 : ℝ) < d := by exact_mod_cast hd
  have e : (r : ℝ) + 2 * d * q = 2 * z + d := by exact_mod_cast h1
  have r0 : (0 : ℝ) ≤ r := by exact_mod_cast h2
  have r1 : (r : ℝ) < 2 * d := by exact_mod_cast h3
  have : (z : ℝ) / d + 1 / 2 = q + r / (2 * d) := by field_simp; linarith
  rw [this]
  have p0 : 0 ≤ (r : ℝ) / (2 * d) := div_nonneg r0 (by linarith)
  have p1 : (r : ℝ) / (2 * d) < 1 := (div_lt_one (by linarith)).2 r1
  constructor <;> linarith

/-- The integer transform is IDCT_DEFAULT (R146) on every DC-only block, and wherever S_REF is more than 2^-168 from every half-integer
(log 5). -/
theorem idctFixed_eq_idctDefault (F : Block) (hF : F.InRange) (p : Fin 64)
    (far : ¬F.DcOnly → ∀ m : ℤ, 1 / 2 ^ 168 < |sRef .unitDc F p - (m + 1 / 2)|) :
    (idctFixed .unitDc F)[p] = idctDefault .unitDc F p := by
  by_cases hdc : F.DcOnly
  · rw [idctDefault, if_pos hdc]
    exact (idctFixed_conforms .unitDc).dc_only_unit rfl F hdc p
  replace far := far hdc
  have hn := idctPasses_near F hF p
  simp only [idctFixed, Fin.getElem_fin, Vector.getElem_ofFn] at hn ⊢
  generalize ((idctColumns (idctRows F))[p.val]) = z at *
  obtain ⟨b1, b2⟩ := roundDiv_bounds z (idctScale .unitDc) (by norm_num [idctScale])
  have hs : ((idctScale .unitDc : Int) : ℝ) = 2 ^ 192 * 2 ^ 192 := by norm_num [idctScale]
  rw [hs] at b1 b2
  generalize roundDiv z (idctScale .unitDc) = n at *
  generalize (z : ℝ) / (2 ^ 192 * 2 ^ 192) = w at *
  generalize hS : sRef .unitDc F p = S at *
  obtain ⟨n1, n2⟩ := abs_le.1 hn
  symm
  rw [idctDefault, if_neg hdc, hS, Int.floor_eq_iff]
  constructor
  · by_contra hc
    have h := far (n - 1)
    push_cast at h hc
    rw [abs_of_neg (by linarith)] at h
    linarith
  · by_contra hc
    have h := far n
    rw [abs_of_nonneg (by linarith)] at h
    linarith

end Sys2Proof.Machine
end

