-- ==== Sys2Proof/Machine/Params.lean ====
section
/-! DEFINITION. The machine's own parameters: an opaque choice among the admissible ones (spec 00_scope.md R8; logs 3 and 4), and the
instance that takes every default the spec gives (R8's table). -/

namespace Sys2Proof.Machine

/-- The instance with the spec's default wherever R8 gives one; the tables and the limits, which R8 leaves OPEN, are arguments. -/
def specDefaults (qtY qtC : Vector Byte 64) (maxWords maxW maxH : Nat) : Params where
  qtY        := qtY
  qtC        := qtC
  zz         := defaultZigzag
  norm       := .unitDc
  idct       := fun _ => idctFixed .unitDc
  colorToInt := .trunc
  byteOrder  := .little
  maxWords   := maxWords
  maxW       := maxW
  maxH       := maxH

/-- The default ZZ satisfies both constraints of R105. -/
theorem defaultZigzag_ok (qtY qtC : Vector Byte 64) : Tables.ZigzagOk ⟨qtY, qtC, defaultZigzag⟩ := by
  have h : defaultZigzag[0] = 0 ∧ ∀ i j : Fin 64, defaultZigzag[i] = defaultZigzag[j] → i = j := by decide +kernel
  exact h

/-- The default instance is admissible, whatever its tables, if its limits are positive and MAX_WORDS fits the register map (R44). -/
theorem specDefaults_admissible (qtY qtC : Vector Byte 64) {maxWords maxW maxH : Nat} (h1 : maxWords < 2 ^ 32) (h2 : 0 < maxWords)
    (h3 : 0 < maxW) (h4 : 0 < maxH) : (specDefaults qtY qtC maxWords maxW maxH).Admissible where
  zigzag := defaultZigzag_ok qtY qtC
  idct_conforms := fun _ => idctFixed_conforms .unitDc
  maxWords_lt := h1
  maxWords_pos := h2
  maxW_pos := h3
  maxH_pos := h4

/-- The machine's parameters with the proof that they are admissible: nothing else is known of them (log 3). -/
def admissibleParams : { P : Params // P.Admissible } :=
  @Config.chosen { P : Params // P.Admissible }
    ⟨⟨specDefaults (Vector.replicate 64 0) (Vector.replicate 64 0) 1 1 1,
      specDefaults_admissible _ _ (by decide) (by decide) (by decide) (by decide)⟩⟩

/-- The machine's parameters (R8). -/
def params : Params := admissibleParams.val

theorem params_admissible : params.Admissible := admissibleParams.property

end Sys2Proof.Machine
end

