-- ==== Sys2Proof/Machine/Color.lean ====
section
/-! DEFINITION. The sub-unit fixed_point_colorspace_matrix: chroma upsampling, the colour matrix, the 9-bit wrap, clamp and flip, and
CONVERT of one Y block into its quadrant of the patch (spec 42_color_conversion.md R160 to R167). -/

namespace Sys2Proof.Machine

/-- The three exact channel values times 10000 (R163): c = 0 is R, 1 is G, 2 is B. -/
def channelNum (y cb cr : Int) (c : Fin 3) : Int :=
  match c with
  | 0 => 10000 * y + 14020 * cr
  | 1 => 10000 * y - 3437 * cb - 7143 * cr
  | 2 => 10000 * y + 17720 * cb

/-- One byte of `PIXEL(Y, Cb, Cr)` (R167): to an integer once (R163), the 9-bit wrap (R164), clamp and flip (R165). -/
def pixel (mode : ColorToInt) (y cb cr : Int) (c : Fin 3) : Byte :=
  flipByte (clamp (sext9 (toInt mode (channelNum y cb cr c) 10000)) (-128) 127)

/-- Horizontal offset of quadrant qd (R160). -/
def quadX (qd : Fin 4) : Nat := 8 * (qd.val % 2)

/-- Vertical offset of quadrant qd (R160). -/
def quadY (qd : Fin 4) : Nat := 8 * (qd.val / 2)

/-- The chroma index of macroblock pixel (px, py) (R161): px is `x + xOff`, py is `y + yOff`. -/
def chromaPos (py px : Fin 16) : Fin 64 := natPos ⟨py.val / 2, by omega⟩ ⟨px.val / 2, by omega⟩

/-- The pixel row of a patch byte (R32). -/
def patchRow (j : Fin 768) : Fin 16 := ⟨j.val / 48, by omega⟩

/-- The pixel column of a patch byte (R32). -/
def patchCol (j : Fin 768) : Fin 16 := ⟨j.val / 3 % 16, by omega⟩

/-- The channel of a patch byte (R32). -/
def patchChan (j : Fin 768) : Fin 3 := ⟨j.val % 3, by omega⟩

/-- Whether macroblock pixel (px, py) lies in quadrant qd (R160, R166). -/
def inQuad (qd : Fin 4) (py px : Fin 16) : Bool := px.val / 8 == qd.val % 2 && py.val / 8 == qd.val / 2

/-- The luma position of macroblock pixel (px, py) inside its quadrant (R160). -/
def lumaPos (py px : Fin 16) : Fin 64 := natPos ⟨py.val % 8, by omega⟩ ⟨px.val % 8, by omega⟩

/-- CONVERT(qd) (R160): the bytes of quadrant qd become the pixels' channels, every other patch byte stays. -/
def convert (mode : ColorToInt) (qd : Fin 4) (spat cbbuf crbuf : Block) (patch : Patch) : Patch :=
  Vector.ofFn fun j =>
    let py := patchRow j
    let px := patchCol j
    if inQuad qd py px then
      pixel mode spat[lumaPos py px] cbbuf[chromaPos py px] crbuf[chromaPos py px] (patchChan j)
    else patch[j]

end Sys2Proof.Machine
end

