-- ==== Sys2Proof/Machine/Ops.lean ====
section
/-! DEFINITION. The named operations over memory and state: image memory (spec 20_memory.md R54), placement and DONE entry
(43_macroblock_and_image_assembly.md R189, R190), NextWord (40_block_decoder.md R100), START's initialisation (R180), and the one
operation that takes an exception (60_exceptions.md R202, R204). No exception returns (R206): only START or RESET leaves DONE or ERROR. -/

namespace Sys2Proof.Machine

/-! ### Image memory -/

/-- The byte at an address. -/
def Memory.read : Memory → Nat → Byte
  | [], _ => unlistedByte
  | (a', b) :: m, a => if a = a' then b else Memory.read m a

/-- Put a cell in front, unless it holds what an unlisted address reads as. -/
def Memory.put (a : Nat) (b : Byte) (m : Memory) : Memory := if b = unlistedByte then m else (a, b) :: m

/-- Write one byte, keeping the canonical form. -/
def Memory.write : Memory → Nat → Byte → Memory
  | [], a, b => Memory.put a b []
  | (a', b') :: m, a, b =>
    if a < a' then Memory.put a b ((a', b') :: m)
    else if a = a' then Memory.put a b m
    else (a', b') :: Memory.write m a b

/-- Write cells in their order. -/
def Memory.writeAll (m : Memory) (cells : List Host.Cell) : Memory :=
  cells.foldl (fun m c => Memory.write m c.1 c.2) m

/-! ### Placement (R189) and DONE entry (R190) -/

/-- `patches_per_column = ceil(H / 16)`. -/
def patchesPerColumn (h : Nat) : Nat := (h + 15) / 16

/-- `patch_x` of patch i. -/
def patchX (h i : Nat) : Nat := i / patchesPerColumn h * 16

/-- `patch_y` of patch i. -/
def patchY (h i : Nat) : Nat := i % patchesPerColumn h * 16

/-- The address of channel c of image pixel (ix, iy) (R54). -/
def imageAddr (w ix iy c : Nat) : Nat := (iy * w + ix) * 3 + c

/-- The image bytes patch i writes, clipped to [0,W) x [0,H) (R189). -/
def patchCells (w h i : Nat) (patch : Patch) : List Host.Cell :=
  (List.finRange 16).flatMap fun py =>
    (List.finRange 16).flatMap fun px =>
      if patchX h i + px.val < w ∧ patchY h i + py.val < h then
        (List.finRange 3).map fun c => (imageAddr w (patchX h i + px.val) (patchY h i + py.val) c.val, patch[patchPos py px c])
      else []

/-- Placement of patch i of a list, where there is one (R189). -/
def placePatch (w h : Nat) (plist : List Patch) (m : Memory) (i : Nat) : Memory :=
  match plist[i]? with
  | some patch => m.writeAll (patchCells w h i patch)
  | none => m

/-- `for i in 0..NP-1: place(i)`, in index order (R190). -/
def placeAll (w h np : Nat) (plist : List Patch) (m : Memory) : Memory :=
  (List.range np).foldl (placePatch w h plist) m

/-- `enter_DONE()` (R190). -/
def State.enterDone (s : State) : State :=
  { s with image := placeAll s.w s.h s.np s.plist s.image, phase := .done }

/-! ### The stream (R100, R101) -/

/-- `HasRemaining()` (R101). -/
def State.hasRemaining (s : State) : Bool := s.cursor < s.n

/-- CURSOR after one word is taken (R100): the only write of CURSOR but START's and RESET's (R102). -/
def State.consume (s : State) : State := { s with cursor := s.cursor + 1 }

/-- `NextWord()` (R100): the word at CURSOR and the state after it, or none where CURSOR ≥ N, with nothing changed. -/
def nextWord (s : State) : Option (Word × State) :=
  match s.words[s.cursor]? with
  | some w => some (w, s.consume)
  | none => none

/-! ### Register and buffer updates -/

/-- SUB <- x (R12 'goto'). -/
def State.setSub (s : State) (x : Sub) : State := { s with sub := x }

/-- What a DC word writes (R110). -/
def State.loadDc (s : State) (q : BitVec 6) (v : Int) : State :=
  { s with q := q, coef := Block.zero.set 0 v, k := 1, sub := .expectAc }

/-- K after a run that ends the block with nothing stored (R112). K has 7 bits (log 17). -/
def State.overrun (s : State) (k : Nat) : State := { s with k := BitVec.ofNat 7 k, sub := .blockEnd }

/-- What a storing AC word writes: the coefficient, the advanced K, and SUB where K reached 64 (R112). -/
def State.storeAc (s : State) (k : Nat) (p : Fin 64) (v : Int) : State :=
  { s with coef := s.coef.set p v, k := BitVec.ofNat 7 (k + 1), sub := if k + 1 ≥ 64 then .blockEnd else s.sub }

/-- A macroblock attempt begins (R182). -/
def State.beginMacroblock (s : State) : State := { s with blk := 0, sub := .expectDc }

/-- The next block of the macroblock begins (R184). -/
def State.nextBlock (s : State) (b : Fin 6) : State := { s with blk := b, sub := .expectDc }

/-- `complete_macroblock()` (R185). -/
def State.completeMacroblock (s : State) : State :=
  { s with plist := s.plist ++ [s.patch], np := s.np + 1, sub := .mbStart }

/-- `init_decode()` with the inputs START supplies (R180, R40). The zero fill of IMAGE lists nothing. A stream of no words starts in
DECODING like any other, and the MB_START step enters DONE (log 25). -/
def State.initDecode (s : State) (words : List Word) (w h : Nat) : State :=
  { s with words := words, w := w, h := h, cursor := 0, plist := [], np := 0, cause := .none, image := [], sub := .mbStart,
           phase := .decoding }

/-- The host's moves still to come (log 6). -/
def State.setMoves (s : State) (ms : List HostMove) : State := { s with moves := ms }

/-- The answer to a host read (log 6). -/
def State.answer (s : State) (r : HostReply) : State := { s with reply := some r }

/-- The RESET event: every piece of state as after reset (R230, R231, log 14); the host's further moves stay. -/
def State.resetEvent (s : State) : State := { State.reset with moves := s.moves }

/-- The state in which the very next step reads word w (the host's `withFetchWord`, log 8). -/
def State.placeWord (s : State) (w : Word) : State :=
  { s with words := s.words.take s.cursor ++ List.replicate (s.cursor - s.n) 0 ++ w :: s.words.drop (s.cursor + 1),
           phase := .decoding, sub := if s.sub = .expectAc then .expectAc else .expectDc, moves := [] }

/-! ### Taking an exception -/

/-- The two exceptions (R200). -/
inductive Exception where
  | endOfStream
  | invalidInputSize
  deriving DecidableEq, Repr

/-- Taking an exception: END_OF_STREAM records its cause and enters DONE, abandoning the macroblock in flight (R204, log 13);
INVALID_INPUT_SIZE records its cause, sets PHASE to ERROR and changes nothing else (R202, log 10). -/
def takeException (e : Exception) (s : State) : State :=
  match e with
  | .endOfStream => State.enterDone { s with cause := .endOfStream }
  | .invalidInputSize => { s with cause := .invalidInputSize, phase := .error }

end Sys2Proof.Machine
end

