-- ==== Sys2Proof/Machine/Words.lean ====
section
/-! DEFINITION. The meanings of the four word classes (spec 40_block_decoder.md R110, R112). Each runs after NextWord took its word
(R100), so none of them touches CURSOR (R102). The forms with a Params argument give the meaning for any instance; the arms of
exec take the machine's own parameters. -/

namespace Sys2Proof.Machine

/-- What one step or one word gives. -/
abbrev Result := Host.Outcome State Fault Refusal

/-- STUFF: 'SUB stays EXPECT_DC; nothing else changes' (R110). -/
def stuffWord (s : State) : Result := .next s

/-- DC q, amp (R110). -/
def dcWord (P : Params) (q : BitVec 6) (amp : BitVec 10) (s : State) : Result :=
  .next (s.loadDc q (dqDc (sext10 amp) (tableEntry P.toTables s.blk 0)))

/-- EOB: SUB <- BLOCK_END (R112). -/
def eobWord (s : State) : Result := .next (s.setSub .blockEnd)

/-- AC run, amp (R112): K + run is compared before it is used as an index. -/
def acWord (P : Params) (run : BitVec 6) (amp : BitVec 10) (s : State) : Result :=
  let k := s.k.toNat + zext6 run
  if h : k < 64 then
    let p := P.zz[k]
    .next (s.storeAc k p (dqAc (sext10 amp) (tableEntry P.toTables s.blk p) (zext6 s.q)))
  else .next (s.overrun k)

/-- The meaning of an instruction in the instance P. -/
def execWith (P : Params) (i : Instr) (s : State) : Result :=
  match i with
  | .stuff => stuffWord s
  | .dc q amp => dcWord P q amp s
  | .eob => eobWord s
  | .ac run amp => acWord P run amp s

/-- The meaning of STUFF (R110). -/
def execStuff (s : State) : Result := stuffWord s

/-- The meaning of DC (R110). -/
def execDc (q : BitVec 6) (amp : BitVec 10) (s : State) : Result := dcWord params q amp s

/-- The meaning of EOB (R112). -/
def execEob (s : State) : Result := eobWord s

/-- The meaning of AC (R112). -/
def execAc (run : BitVec 6) (amp : BitVec 10) (s : State) : Result := acWord params run amp s

end Sys2Proof.Machine
end

