-- ==== Sys2Proof/Machine/Engine.lean ====
section
/-! DEFINITION. The engine's steps (spec 43_macroblock_and_image_assembly.md R181 to R187): a word read, the macroblock boundary, the
end of a block, and the dispatch by PHASE and SUB. -/

namespace Sys2Proof.Machine

/-- A step in EXPECT_DC or EXPECT_AC: NextWord, then the word's meaning; EndOfStream where no word is left (R110, R112, R203). -/
def readWord (ex : Instr → State → Result) (s : State) : Result :=
  match nextWord s with
  | none => .next (takeException .endOfStream s)
  | some (w, s') =>
    match decode s.sub w with
    | .ok i => ex i s'
    | .error _ => .fault (.wordWithoutReading w)

/-- MB_START: DONE with CAUSE = NONE where no word is left (R181), else a macroblock attempt (R182). -/
def mbStartStep (s : State) : State :=
  if s.hasRemaining then s.beginMacroblock else State.enterDone { s with cause := .none }

/-- `advance_block()` (R184). -/
def advanceBlock (s : State) : State :=
  if h : s.blk.val < 5 then s.nextBlock ⟨s.blk.val + 1, by omega⟩ else s.completeMacroblock

/-- Where BLOCK_END puts the transformed block: CRBUF, CBBUF, or through CONVERT into PATCH (R183). -/
def routeBlock (P : Params) (s : State) : State :=
  if s.blk.val = 0 then { s with crbuf := s.spat }
  else if s.blk.val = 1 then { s with cbbuf := s.spat }
  else { s with patch := convert P.colorToInt ⟨s.blk.val - 2, by omega⟩ s.spat s.cbbuf s.crbuf s.patch }

/-- BLOCK_END: transform, route, advance (R140, R183). NP, which stays the same through the six blocks of a
macroblock, says which macroblock of the decode this is, so all six go through the same transform (R150, log 4). SPAT keeps the transformed block afterwards (log 15). -/
def blockEndStep (P : Params) (s : State) : State :=
  advanceBlock (routeBlock P { s with spat := P.idct s.np s.coef })

/-- The engine's dispatch (R187). Outside DECODING the engine has no step and the state stays as it is (log 7). -/
def engineStep (P : Params) (ex : Instr → State → Result) (s : State) : Result :=
  match s.phase with
  | .decoding =>
    match s.sub with
    | .mbStart => .next (mbStartStep s)
    | .expectDc => readWord ex s
    | .expectAc => readWord ex s
    | .blockEnd => .next (blockEndStep P s)
  | .idle => .next s
  | .done => .next s
  | .error => .next s

end Sys2Proof.Machine
end

