-- ==== Sys2Proof/Machine/HostPort.lean ====
section
/-! DEFINITION. The host's operations (spec 10_state.md R40 to R44; 60_exceptions.md R202, R207, R208; 70_reset_and_hazards.md R230) and
which move comes next (log 6). -/

namespace Sys2Proof.Machine

/-- START in either form (R40): refused while DECODING, refused beyond the instance's limits (R208, before the size check: R207),
INVALID_INPUT_SIZE on a non-positive size or an odd byte length (R202), else the decode begins (R180), on no words too (log 25). The
order of the checks is log 19, signed sizes log 18. -/
def startMove (P : Params) (words : List Word) (oddBytes : Bool) (w h : Int) (s : State) : Result :=
  if s.phase = .decoding then .refused .startWhileDecoding
  else if P.maxWords < words.length ∨ (P.maxW : Int) < w ∨ (P.maxH : Int) < h then .refused .startTooLarge
  else if w ≤ 0 ∨ h ≤ 0 ∨ oddBytes = true then .next (takeException .invalidInputSize s)
  else .next (s.initDecode words w.toNat h.toNat)

/-- READ_STATUS (R41): STATUS, NP and CURSOR as the 32-bit registers of R44. -/
def readStatusMove (s : State) : Result :=
  .next (s.answer (.status (statusWord s) (BitVec.ofNat 32 s.np) (BitVec.ofNat 32 s.cursor)))

/-- READ_IMAGE(i) (R42). -/
def readImageMove (i : Nat) (s : State) : Result :=
  if s.phase = .done then
    if i < s.w * s.h * 3 then .next (s.answer (.byte (Memory.read s.image i)))
    else .refused .readImageOutOfRange
  else .refused .readImageOutsideDone

/-- One host move; `wait` is the engine's step (log 6). -/
def hostMove (P : Params) (ex : Instr → State → Result) (m : HostMove) (s : State) : Result :=
  match m with
  | .wait => engineStep P ex s
  | .reset => .next s.resetEvent
  | .start words w h => startMove P words false w h s
  | .startBytes bytes w h => startMove P (wordsOfBytes P.byteOrder bytes) (bytes.length % 2 == 1) w h s
  | .readStatus => readStatusMove s
  | .readImage i => readImageMove i s

/-- One step: the host's next move, or the engine's step where the host has none. -/
def stepBy (P : Params) (ex : Instr → State → Result) (s : State) : Result :=
  match s.moves with
  | [] => engineStep P ex s
  | m :: rest => hostMove P ex m (s.setMoves rest)

end Sys2Proof.Machine
end

