-- ==== Sys2Proof/Machine/Dispatch.lean ====
section
/-! DEFINITION. exec: one arm per constructor of Instr, each one direct call of its meaning. -/

namespace Sys2Proof.Machine

def exec (i : Instr) (s : State) : Host.Outcome State Fault Refusal :=
  match i with
  | .stuff => Sys2Proof.Machine.execStuff s
  | .dc q amp => Sys2Proof.Machine.execDc q amp s
  | .eob => Sys2Proof.Machine.execEob s
  | .ac run amp => Sys2Proof.Machine.execAc run amp s

end Sys2Proof.Machine
end

