-- ==== Sys2Proof/Machine/Step.lean ====
section
/-! DEFINITION. The machine's step, the step of any instance, and where the host puts a word for the next step to run. -/

namespace Sys2Proof.Machine

/-- One step of the machine. -/
def step (s : State) : Host.Outcome State Fault Refusal := stepBy params exec s

/-- One step of the instance P (R8: 'The model takes the parameters below as arguments'). -/
def stepWith (P : Params) (s : State) : Host.Outcome State Fault Refusal := stepBy P (execWith P) s

/-- s with the word whose bits are w placed where the next step reads its word (log 8). -/
def State.withFetchWord (s : State) (nbits w : Nat) : State := s.placeWord (BitVec.ofNat 16 (w % 2 ^ nbits))

end Sys2Proof.Machine
end

