-- ==== Sys2Proof/Safety.lean ====
section
/-! DEFINITION. What claims mean by a safe state: the invariants of spec 10_state.md R39 with what makes them inductive (R23, R27, R29,
R33, R36, R236), the range of the spatial buffers (R30, R35), and the part of the state a later step can read (R232). -/

namespace Sys2Proof.Machine

/-- Words the macroblock in flight has consumed at the least, by the steps behind it (R33: each block at least 2 words). -/
def wordsInFlight (s : State) : Nat :=
  if s.phase = .decoding then
    match s.sub with
    | .mbStart => 0
    | .expectDc => 2 * s.blk.val
    | .expectAc => 2 * s.blk.val + 1
    | .blockEnd => 2 * s.blk.val + 2
  else 0

/-- The causes that go with each phase (R22, R36, R200, R236). -/
def causeFits (p : Phase) (c : Cause) : Bool :=
  match p with
  | .idle => c == .none
  | .decoding => c == .none
  | .done => c != .invalidInputSize
  | .error => c == .invalidInputSize

/-- What holds in every state a run reaches, for the instance P. -/
structure State.Inv (P : Params) (s : State) : Prop where
  /-- R39: CURSOR ≤ N. -/
  cursor_le   : s.cursor ≤ s.n
  /-- R208: a stream beyond MAX_WORDS is never accepted. -/
  n_le        : s.n ≤ P.maxWords
  /-- R208. -/
  w_le        : s.w ≤ P.maxW
  /-- R208. -/
  h_le        : s.h ≤ P.maxH
  /-- R202: a decode runs on positive sizes. -/
  sizes_pos   : s.phase = .decoding ∨ s.phase = .done → 0 < s.w ∧ 0 < s.h
  /-- R39: |PLIST| = NP. -/
  np_length   : s.plist.length = s.np
  /-- R33: every completed macroblock consumed at least 12 words. -/
  words_used  : 12 * s.np + wordsInFlight s ≤ s.cursor
  /-- R39: in EXPECT_AC, 1 ≤ K ≤ 63. -/
  k_range     : s.phase = .decoding → s.sub = .expectAc → 1 ≤ s.k.toNat ∧ s.k.toNat ≤ 63
  /-- R29, R116: COEF lies in the clamp range. -/
  coef_range  : s.coef.InRange
  /-- R39, R195: at DONE, CURSOR = N. -/
  done_cursor : s.phase = .done → s.cursor = s.n
  /-- CAUSE goes with PHASE. -/
  cause_fits  : causeFits s.phase s.cause = true
  /-- R236: during a decode IMAGE holds its zero fill. -/
  image_zero  : s.phase = .decoding → s.image = []
  /-- IMAGE has its canonical form. -/
  image_wf    : Memory.wf s.image
  /-- R34: IMAGE lists no address outside 0..W*H*3-1. -/
  image_in    : ∀ c ∈ s.image, c.1 < s.w * s.h * 3

/-- Every element fits 22 bits signed (R35, R148). -/
abbrev fits22 (B : Block) : Prop := ∀ p : Fin 64, -2097152 ≤ B[p] ∧ B[p] ≤ 2097151

/-- The spatial buffers hold what R35's widths hold. -/
structure State.SpatialFits (s : State) : Prop where
  spat  : fits22 s.spat
  crbuf : fits22 s.crbuf
  cbbuf : fits22 s.cbbuf

/-- What the host can observe of a state now or later, but for IMAGE outside DONE (R37, R38, R44). -/
structure Visible where
  phase  : Phase
  cause  : Cause
  cursor : Nat
  np     : Nat
  image  : Option Memory
  deriving DecidableEq, Repr

/-- STATUS, NP, CURSOR, and IMAGE where it can be read (R42). -/
def visible (s : State) : Visible where
  phase  := s.phase
  cause  := s.cause
  cursor := s.cursor
  np     := s.np
  image  := if s.phase = .done then some s.image else none

/-- A run that ends in no fault. -/
def Safe (r : Result) : Prop := ∀ f, r ≠ .fault f

end Sys2Proof.Machine
end

