-- ==== Sys2Proof/Certificates/Slice0/Obligations.lean ====
section
/-! DEFINITION. The statements for the provers, from the numbered rules of spec/. Where a statement rests on a choice of the model's own,
its docstring names the log entry. -/

open Sys2Proof Sys2Proof.Machine

/-! ### Words (30_encoding.md) -/

/-- R82's worked encodings (the spec's own, derived from the notation it chose in R80), each written out as the word the spec gives, decode in their context to what they stand for, and encode
back. -/
def Obligations.WorkedEncodingsDecode : Prop :=
  (∀ x ∈ [(0x0400#16, 1#6, 0), (0x040A#16, 1#6, 10), (0x07F6#16, 1#6, -10), (0x0800#16, 2#6, 0), (0x07C0#16, 1#6, -64),
      (0x07CE#16, 1#6, -50)],
    decode .expectDc x.1 = .ok (.dc x.2.1 (BitVec.ofInt 10 x.2.2)) ∧ encode (.dc x.2.1 (BitVec.ofInt 10 x.2.2)) = x.1) ∧
  (∀ x ∈ [(0x000A#16, 0#6, 10), (0xFC05#16, 63#6, 5), (0xF808#16, 62#6, 8)],
    decode .expectAc x.1 = .ok (.ac x.2.1 (BitVec.ofInt 10 x.2.2)) ∧ encode (.ac x.2.1 (BitVec.ofInt 10 x.2.2)) = x.1) ∧
  decode .expectDc 0xFE00#16 = .ok .stuff ∧ decode .expectAc 0xFE00#16 = .ok .eob ∧
  encode .stuff = 0xFE00#16 ∧ encode .eob = 0xFE00#16

/-- R72, R76, R80: for every instruction some word encodes, the decoder reads the encoder's word, in that instruction's context, as the
instruction, every operand at every value. -/
def Obligations.DecodeOfEncode : Prop :=
  ∀ i : Instr, i.WellFormed → decode i.context (encode i) = .ok i

/-- R76, R78: what the decoder reads from a word encodes back to that word, is read in the instruction's own context, and is never the
field pair (63, -512), which R75 infers to have no encoding. -/
def Obligations.EncodeOfDecode : Prop :=
  ∀ (sub : Sub) (w : Word) (i : Instr), decode sub w = .ok i → encode i = w ∧ i.context = sub ∧ i.WellFormed

/-- R76: the sub-state and the word alone give the reading, by R76's table with R71's fields as numbers; R78: so both contexts that read
words read every word, and R74: the sentinel is tested on all 16 bits before any field. -/
def Obligations.ReadingByContext : Prop :=
  ∀ w : Word,
    decode .expectDc w =
      .ok (if w.toNat = 0xFE00 then .stuff else .dc (BitVec.ofNat 6 (w.toNat / 1024)) (BitVec.ofNat 10 (w.toNat % 1024))) ∧
    decode .expectAc w =
      .ok (if w.toNat = 0xFE00 then .eob else .ac (BitVec.ofNat 6 (w.toNat / 1024)) (BitVec.ofNat 10 (w.toNat % 1024))) ∧
    decode .mbStart w = .error (.noWordReadIn .mbStart) ∧
    decode .blockEnd w = .error (.noWordReadIn .blockEnd)

/-- R72: the operand values of a word's fields: q and run are bits [15:10] unsigned, amp is bits [9:0] sign-extended from bit 9. -/
def Obligations.OperandValues : Prop :=
  ∀ w : Word,
    zext6 (hi6 w) = w.toNat / 1024 ∧ zext6 (hi6 w) ≤ 63 ∧
    sext10 (lo10 w) = (if w.toNat % 1024 < 512 then ((w.toNat % 1024 : Nat) : Int) else ((w.toNat % 1024 : Nat) : Int) - 1024) ∧
    -512 ≤ sext10 (lo10 w) ∧ sext10 (lo10 w) ≤ 511

/-- R52: the byte form's words, L / 2 of them, each from its two bytes in the instance's order. -/
def Obligations.ByteFormWords : Prop :=
  ∀ (order : ByteOrder) (bytes : List Byte),
    (wordsOfBytes order bytes).length = bytes.length / 2 ∧
    ∀ (a : Nat) (b0 b1 : Byte), bytes[2 * a]? = some b0 → bytes[2 * a + 1]? = some b1 →
      ∃ w, (wordsOfBytes order bytes)[a]? = some w ∧
        w.toNat = match order with
          | .little => b0.toNat + 256 * b1.toNat
          | .big => 256 * b0.toNat + b1.toNat

/-- R105 for ZZ, and, for the tables, the refusal at configuration that is the spec's own choice D3 (R208): configuration accepts an instance's table ROM exactly where both tables are 64 integers in
0..255 and ZZ is a bijection on 0..63 with ZZ[0] = 0, and then the ROM holds those integers; the default ZZ satisfies both constraints
on ZZ. -/
def Obligations.ConfigurationChecked : Prop :=
  (∀ qtY qtC zz : List Int,
    ((∃ T, configure qtY qtC zz = .ok T) ↔
      (qtY.length = 64 ∧ ∀ x ∈ qtY, 0 ≤ x ∧ x ≤ 255) ∧ (qtC.length = 64 ∧ ∀ x ∈ qtC, 0 ≤ x ∧ x ≤ 255) ∧
      (zz.length = 64 ∧ ∀ x ∈ zz, 0 ≤ x ∧ x ≤ 63) ∧ zz.Nodup ∧ zz[0]? = some 0) ∧
    ∀ T, configure qtY qtC zz = .ok T → ∀ p : Fin 64,
      qtY[p.val]? = some (T.qtY[p].toNat : Int) ∧ qtC[p.val]? = some (T.qtC[p].toNat : Int) ∧
      zz[p.val]? = some ((T.zz[p]).val : Int)) ∧
  (let dflt := defaultZigzag.toList.map fun p => (p.val : Int)
   dflt.length = 64 ∧ (∀ x ∈ dflt, 0 ≤ x ∧ x ≤ 63) ∧ dflt.Nodup ∧ dflt[0]? = some 0)

/-- R104 (the default ZZ is the spec's own choice, D4): the default ZZ walks the anti-diagonals x + y in turn, an even one towards the top right and an odd one towards the bottom
left; and R105's two constraints. -/
def Obligations.DefaultZigzagWalksDiagonals : Prop :=
  defaultZigzag[0] = 0 ∧ (∀ i j : Fin 64, defaultZigzag[i] = defaultZigzag[j] → i = j) ∧
  ∀ k : Fin 63,
    let p := (defaultZigzag[k.val]).val
    let p' := (defaultZigzag[k.val + 1]).val
    if p / 8 + p % 8 = p' / 8 + p' % 8 then
      if (p / 8 + p % 8) % 2 = 0 then p' / 8 + 1 = p / 8 else p' / 8 = p / 8 + 1
    else p' / 8 + p' % 8 = p / 8 + p % 8 + 1

/-! ### The dequantizers (R111, R113, R116) -/

/-- R111: the DC dequantizer over its operands, with R111's bound and its examples. -/
def Obligations.DcDequantizer : Prop :=
  (∀ amp t0 : Int, dqDc amp t0 = max (-16384) (min 16383 (if t0 = 0 then amp * 2 else amp * t0))) ∧
  (∀ amp t0 : Int, -512 ≤ amp → amp ≤ 511 → 0 ≤ t0 → t0 ≤ 255 → |amp * t0| ≤ 130560) ∧
  dqDc (-1) 2 = -2 ∧ dqDc 511 255 = 16383 ∧ dqDc (-512) 255 = -16384 ∧ dqDc (-512) 0 = -1024 ∧ dqDc 100 0 = 200

/-- R113: the AC dequantizer over its operands, the shift as the floor of an eighth (the spec's own choice, D8), with R113's bound and
its examples. -/
def Obligations.AcDequantizer : Prop :=
  (∀ amp e q : Int, dqAc amp e q =
    max (-16384) (min 16383 (if e * q = 0 then amp * 2 else ⌊((amp * e * q + 4 : Int) : ℚ) / 8⌋))) ∧
  (∀ amp e q : Int, -512 ≤ amp → amp ≤ 511 → 0 ≤ e → e ≤ 255 → 0 ≤ q → q ≤ 63 → |amp * e * q| ≤ 8225280) ∧
  dqAc 1 16 1 = 2 ∧ dqAc (-1) 16 1 = -2 ∧ dqAc 3 1 1 = 0 ∧ dqAc (-3) 1 1 = 0 ∧ dqAc 4 1 1 = 1 ∧ dqAc (-4) 1 1 = 0 ∧
  dqAc (-5) 1 1 = -1 ∧ dqAc 7 0 5 = 14 ∧ dqAc 7 16 0 = 14 ∧ dqAc 511 255 63 = 16383 ∧ dqAc (-512) 255 63 = -16384

/-- R29, and R116 (the spec's own inference): a DC word leaves every COEF element in the clamp range, whatever was there, and every word keeps it there. -/
def Obligations.CoefficientsStayInRange : Prop :=
  (∀ q amp s t, exec (.dc q amp) s = .next t → t.coef.InRange) ∧
  (∀ i s t, s.coef.InRange → exec i s = .next t → t.coef.InRange)

/-! ### The word classes (R100, R110, R112) -/

/-- R100, R187: where the engine's step reads a word, the step is exec of the decoded instruction after CURSOR has advanced by 1; a
'wait' of the host only gives the engine its turn (log 6). -/
def Obligations.StepRunsDecodedWord : Prop :=
  ∀ (s : State) (w : Word) (i : Instr), s.phase = .decoding → s.words[s.cursor]? = some w → decode s.sub w = .ok i →
    (s.moves = [] → step s = exec i { s with cursor := s.cursor + 1 }) ∧
    (∀ rest, s.moves = .wait :: rest → step s = exec i { s with cursor := s.cursor + 1, moves := rest })

/-- R110: a STUFF word changes nothing but CURSOR, which its reading advanced. -/
def Obligations.StuffingWordSkipped : Prop :=
  ∀ s : State, exec .stuff s = .next s

/-- R110, R111, R26: what a DC word writes, and that it writes nothing else. -/
def Obligations.DcWordEffect : Prop :=
  ∀ (q : BitVec 6) (amp : BitVec 10) (s : State), ∃ t, exec (.dc q amp) s = .next t ∧
    t.q = q ∧ t.k.toNat = 1 ∧ t.sub = .expectAc ∧
    (let t0 : Int := if s.blk.val < 2 then (params.qtC[0].toNat : Int) else (params.qtY[0].toNat : Int)
     t.coef[0] = max (-16384) (min 16383 (if t0 = 0 then amp.toInt * 2 else amp.toInt * t0))) ∧
    (∀ p : Fin 64, p ≠ 0 → t.coef[p] = 0) ∧
    t = { s with q := t.q, coef := t.coef, k := t.k, sub := t.sub }

/-- R112: an EOB word ends the block and changes nothing else. -/
def Obligations.EndOfBlockWord : Prop :=
  ∀ s : State, exec .eob s = .next { s with sub := .blockEnd }

/-- R112, R113, R26: an AC word whose run stays inside the block stores one coefficient, advances K, ends the block where it stored at
index 63, and writes nothing else. That the stored value's shift is the floor of an eighth is the spec's own choice (D8). -/
def Obligations.AcWordStores : Prop :=
  ∀ (run : BitVec 6) (amp : BitVec 10) (s : State) (k : Nat) (hk : k < 64), s.k.toNat + run.toNat = k →
    ∃ t, exec (.ac run amp) s = .next t ∧
      (let p := params.zz[k]
       let e : Int := if s.blk.val < 2 then (params.qtC[p].toNat : Int) else (params.qtY[p].toNat : Int)
       let q : Int := s.q.toNat
       t.coef[p] = max (-16384) (min 16383
         (if e * q = 0 then amp.toInt * 2 else ⌊((amp.toInt * e * q + 4 : Int) : ℚ) / 8⌋)) ∧
       ∀ p' : Fin 64, p' ≠ p → t.coef[p'] = s.coef[p']) ∧
      t.k.toNat = k + 1 ∧ t.sub = (if k = 63 then .blockEnd else s.sub) ∧
      t = { s with coef := t.coef, k := t.k, sub := t.sub }

/-- R112: an AC word whose run takes K to 64 or more stores nothing and ends the block; K takes the sum, in its 7 bits (log 17: the sum
fits wherever K is at most 64, as in every state a run reaches). -/
def Obligations.AcWordOverruns : Prop :=
  ∀ (run : BitVec 6) (amp : BitVec 10) (s : State), 64 ≤ s.k.toNat + run.toNat →
    ∃ t, exec (.ac run amp) s = .next t ∧ t.sub = .blockEnd ∧ t.k.toNat = (s.k.toNat + run.toNat) % 128 ∧
      (s.k.toNat ≤ 64 → t.k.toNat = s.k.toNat + run.toNat) ∧
      t = { s with k := t.k, sub := t.sub }

/-- R110, whole: the engine's step in EXPECT_DC. No word left raises EndOfStream; 0xFE00 is skipped; any other word is a DC word, which
clears COEF, loads Q and COEF[0], sets K to 1 and begins the AC words; nothing else changes. -/
def Obligations.ExpectDcStep : Prop :=
  ∀ s : State, s.phase = .decoding → s.sub = .expectDc → s.moves = [] →
    (s.n ≤ s.cursor → ∃ t, step s = .next t ∧ t.cause = .endOfStream ∧ t.phase = .done ∧ t.cursor = s.cursor) ∧
    ∀ w : Word, s.words[s.cursor]? = some w →
      (w = 0xFE00#16 → step s = .next { s with cursor := s.cursor + 1 }) ∧
      (w ≠ 0xFE00#16 → ∃ t, step s = .next t ∧
        (let amp : Int := if w.toNat % 1024 < 512 then ((w.toNat % 1024 : Nat) : Int) else ((w.toNat % 1024 : Nat) : Int) - 1024
         let t0 : Int := if s.blk.val < 2 then (params.qtC[0].toNat : Int) else (params.qtY[0].toNat : Int)
         t.q.toNat = w.toNat / 1024 ∧ t.k.toNat = 1 ∧
         t.coef[0] = max (-16384) (min 16383 (if t0 = 0 then amp * 2 else amp * t0)) ∧ (∀ p : Fin 64, p ≠ 0 → t.coef[p] = 0)) ∧
        t = { s with cursor := s.cursor + 1, q := t.q, coef := t.coef, k := t.k, sub := .expectAc })

/-- R112: the engine's step in EXPECT_AC, with K in the range R39 gives it. That the stored value's shift is the floor of an eighth is the
spec's own choice (D8). No word left raises EndOfStream; 0xFE00 ends the
block; any other word is an AC word: K advances by its run, and from 64 on the block ends with nothing stored; else one coefficient is
stored, K advances by 1, and the block ends where K reached 64; nothing else changes. -/
def Obligations.ExpectAcStep : Prop :=
  ∀ s : State, s.phase = .decoding → s.sub = .expectAc → s.moves = [] → 1 ≤ s.k.toNat → s.k.toNat ≤ 63 →
    (s.n ≤ s.cursor → ∃ t, step s = .next t ∧ t.cause = .endOfStream ∧ t.phase = .done ∧ t.cursor = s.cursor) ∧
    ∀ w : Word, s.words[s.cursor]? = some w →
      (w = 0xFE00#16 → step s = .next { s with cursor := s.cursor + 1, sub := .blockEnd }) ∧
      (w ≠ 0xFE00#16 → 64 ≤ s.k.toNat + w.toNat / 1024 →
        ∃ t, step s = .next t ∧ t.k.toNat = s.k.toNat + w.toNat / 1024 ∧
          t = { s with cursor := s.cursor + 1, k := t.k, sub := .blockEnd }) ∧
      (w ≠ 0xFE00#16 → ∀ (k : Nat) (hk : k < 64), s.k.toNat + w.toNat / 1024 = k →
        ∃ t, step s = .next t ∧
          (let amp : Int := if w.toNat % 1024 < 512 then ((w.toNat % 1024 : Nat) : Int) else ((w.toNat % 1024 : Nat) : Int) - 1024
           let p := params.zz[k]
           let e : Int := if s.blk.val < 2 then (params.qtC[p].toNat : Int) else (params.qtY[p].toNat : Int)
           let q : Int := s.q.toNat
           t.coef[p] = max (-16384) (min 16383 (if e * q = 0 then amp * 2 else ⌊((amp * e * q + 4 : Int) : ℚ) / 8⌋)) ∧
           ∀ p' : Fin 64, p' ≠ p → t.coef[p'] = s.coef[p']) ∧
          t.k.toNat = k + 1 ∧
          t = { s with cursor := s.cursor + 1, coef := t.coef, k := t.k, sub := if k = 63 then .blockEnd else .expectAc })

/-- The frame of STUFF, DC, EOB and AC: no word writes the stream, the sizes, PHASE, CAUSE, CURSOR, BLK, the spatial buffers, PATCH,
PLIST, NP or any byte of IMAGE; only DC writes Q; STUFF and EOB write neither COEF nor K; STUFF does not write SUB (R110, R112). -/
def Obligations.WordFrame : Prop :=
  ∀ (i : Instr) (s t : State), exec i s = .next t →
    t.words = s.words ∧ t.w = s.w ∧ t.h = s.h ∧ t.phase = s.phase ∧ t.cause = s.cause ∧ t.cursor = s.cursor ∧ t.blk = s.blk ∧
    t.spat = s.spat ∧ t.crbuf = s.crbuf ∧ t.cbbuf = s.cbbuf ∧ t.patch = s.patch ∧ t.plist = s.plist ∧ t.np = s.np ∧
    t.moves = s.moves ∧ t.reply = s.reply ∧ (∀ a, Memory.read t.image a = Memory.read s.image a) ∧
    ((∀ q amp, i ≠ .dc q amp) → t.q = s.q) ∧
    (i = .stuff ∨ i = .eob → t.coef = s.coef ∧ t.k = s.k) ∧
    (i = .stuff → t.sub = s.sub)

/-- R114 (the spec's own inference from R112): the engine's step leaves a block at its end in exactly three ways: an EOB word, an AC word
whose run takes K to 64 or more, and an AC store at K = 63. That an EndOfStream leaves SUB as it was is the model's choice (log 13). -/
def Obligations.BlockEndsInThreeWays : Prop :=
  ∀ (s t : State), s.phase = .decoding → s.moves = [] → s.sub ≠ .blockEnd → step s = .next t →
    (t.sub = .blockEnd ↔
      s.sub = .expectAc ∧ ∃ w, s.words[s.cursor]? = some w ∧
        (w = 0xFE00#16 ∨ 64 ≤ s.k.toNat + w.toNat / 1024 ∨ s.k.toNat + w.toNat / 1024 = 63))

/-! ### The exceptions (60_exceptions.md) -/

/-- R203: during a decode, the engine's step records END_OF_STREAM exactly where it would read a word and none is left; then CURSOR = N
and is not advanced. -/
def Obligations.EndOfStreamExactlyAtBound : Prop :=
  ∀ s t : State, s.Inv params → s.phase = .decoding → s.moves = [] → step s = .next t →
    ((t.cause = .endOfStream ↔ (s.sub = .expectDc ∨ s.sub = .expectAc) ∧ s.n ≤ s.cursor) ∧
      (t.cause = .endOfStream → s.cursor = s.n ∧ t.cursor = s.cursor))

/-- R204, R190: taking END_OF_STREAM sets CAUSE and enters DONE: the completed patches are placed in index order, PHASE becomes DONE, and
no patch of the abandoned macroblock is appended. That nothing else changes, the dead registers SUB, BLK, K, Q, COEF, SPAT, CRBUF, CBBUF
and PATCH among it, is the model's choice, deduced from the spec's own inference R205 where I11 leaves them open (log 13). What the image
then holds is DoneImage. -/
def Obligations.EndOfStreamEntry : Prop :=
  ∀ s : State, s.phase = .decoding → s.sub = .expectDc ∨ s.sub = .expectAc → s.moves = [] → s.n ≤ s.cursor →
    step s = .next { s with phase := .done, cause := .endOfStream, image := placeAll s.w s.h s.np s.plist s.image }

/-- R202, R40, R180: the outcome of START within the instance's limits. A non-positive size gives ERROR with INVALID_INPUT_SIZE and
changes nothing else; else the decode begins, every image byte reading 0. The words may be none: that the decode then begins in DECODING too is log 25. That a failing START leaves WORDS, N, W
and H as they were is log 10. -/
def Obligations.StartOutcome : Prop :=
  ∀ (s : State) (words : List Word) (w h : Int) (rest : List HostMove), s.moves = .start words w h :: rest → s.phase ≠ .decoding →
    words.length ≤ params.maxWords → w ≤ params.maxW → h ≤ params.maxH →
    (w ≤ 0 ∨ h ≤ 0 → step s = .next { s with phase := .error, cause := .invalidInputSize, moves := rest }) ∧
    (0 < w → 0 < h → ∃ t, step s = .next t ∧
      t.words = words ∧ t.n = words.length ∧ (t.w : Int) = w ∧ (t.h : Int) = h ∧ t.cursor = 0 ∧ t.plist = [] ∧ t.np = 0 ∧
      t.cause = .none ∧ t.sub = .mbStart ∧ t.phase = .decoding ∧ (∀ a, Memory.read t.image a = 0#8) ∧
      t = { s with words := words, w := t.w, h := t.h, cursor := 0, plist := [], np := 0, cause := .none, sub := .mbStart,
                   phase := .decoding, image := t.image, moves := rest })

/-- R202, R40, R56: the outcome of START_BYTES within the limits: INVALID_INPUT_SIZE on an odd byte length too, else START's outcome with
the words of R52. That a failing one leaves WORDS, N, W and H as they were is log 10, and that an odd length is held to the limit at
L / 2 rounded down is log 19; that a decode of no bytes begins in DECODING too is log 25. -/
def Obligations.StartBytesOutcome : Prop :=
  ∀ (s : State) (bytes : List Byte) (w h : Int) (rest : List HostMove), s.moves = .startBytes bytes w h :: rest →
    s.phase ≠ .decoding → bytes.length / 2 ≤ params.maxWords → w ≤ params.maxW → h ≤ params.maxH →
    (w ≤ 0 ∨ h ≤ 0 ∨ bytes.length % 2 = 1 →
      step s = .next { s with phase := .error, cause := .invalidInputSize, moves := rest }) ∧
    (0 < w → 0 < h → bytes.length % 2 = 0 →
      step s = step { s with moves := .start (wordsOfBytes params.byteOrder bytes) w h :: rest } ∧
      ∃ t, step s = .next t ∧ t.phase = .decoding ∧ t.n = bytes.length / 2)

/-- R40, R207, R208: a START in either form is refused while DECODING, and beyond MAX_WORDS, MAX_W or MAX_H, the latter even where the
size check would fail (the spec's own choices D15, D20). That DECODING is tested before the limits, and that an odd length counts as
L / 2 words rounded down, is log 19. -/
def Obligations.StartRefused : Prop :=
  ∀ (s : State) (m : HostMove) (rest : List HostMove) (n : Nat) (w h : Int), s.moves = m :: rest →
    ((∃ words, m = .start words w h ∧ n = words.length) ∨ (∃ bytes, m = .startBytes bytes w h ∧ n = bytes.length / 2)) →
    (s.phase = .decoding → step s = .refused .startWhileDecoding) ∧
    (s.phase ≠ .decoding → params.maxWords < n ∨ (params.maxW : Int) < w ∨ (params.maxH : Int) < h →
      step s = .refused .startTooLarge)

/-- R201: no step ends in a fault: every word has a reading and no rule stops the machine. -/
def Obligations.NoStepFaults : Prop :=
  ∀ s : State, Safe (step s)

/-- R208 (the spec's own choices D15, D19, D20): a step is refused only on a START while DECODING, on a START whose words, width or height
exceed the instance's limits, or on a READ_IMAGE outside DONE or out of range. That an odd length counts as L / 2 words rounded down, and
that DECODING is tested first, is log 19. -/
def Obligations.RefusalsAreHostInputs : Prop :=
  ∀ (s : State) (r : Refusal), step s = .refused r → ∃ m rest, s.moves = m :: rest ∧
    ((r = .startWhileDecoding ∧ s.phase = .decoding ∧ ((∃ a w h, m = .start a w h) ∨ ∃ a w h, m = .startBytes a w h)) ∨
     (r = .startTooLarge ∧ s.phase ≠ .decoding ∧ ∃ (n : Nat) (w h : Int),
       ((∃ words, m = .start words w h ∧ n = words.length) ∨ ∃ bytes, m = .startBytes bytes w h ∧ n = bytes.length / 2) ∧
       (params.maxWords < n ∨ (params.maxW : Int) < w ∨ (params.maxH : Int) < h)) ∨
     (∃ i, m = .readImage i ∧ ((r = .readImageOutsideDone ∧ s.phase ≠ .done) ∨
       (r = .readImageOutOfRange ∧ s.phase = .done ∧ s.w * s.h * 3 ≤ i))))

/-! ### Macroblocks (43_macroblock_and_image_assembly.md R181 to R185) -/

/-- R181, R182: the step at a macroblock boundary: a macroblock attempt begins where a word is left; else DONE is entered with
CAUSE = NONE, the completed patches placed in index order. No word is read. -/
def Obligations.MacroblockBoundary : Prop :=
  ∀ s : State, s.phase = .decoding → s.sub = .mbStart → s.moves = [] →
    (s.cursor < s.n → step s = .next { s with blk := 0, sub := .expectDc }) ∧
    (s.n ≤ s.cursor →
      step s = .next { s with phase := .done, cause := .none, image := placeAll s.w s.h s.np s.plist s.image })

/-- R183: BLOCK_END of the Cr block and of the Cb block. That SPAT still holds the block after the step is the model's
choice (log 15), and so is that the transform may differ with the macroblock's place in its decode, NP (log 4). -/
def Obligations.ChromaBlockKept : Prop :=
  ∀ s : State, s.phase = .decoding → s.sub = .blockEnd → s.moves = [] →
    (s.blk = 0 → ∃ t, step s = .next t ∧ t.spat = params.idct s.np s.coef ∧ t.crbuf = t.spat ∧ t.blk = 1 ∧ t.sub = .expectDc ∧
      t = { s with spat := t.spat, crbuf := t.crbuf, blk := t.blk, sub := t.sub }) ∧
    (s.blk = 1 → ∃ t, step s = .next t ∧ t.spat = params.idct s.np s.coef ∧ t.cbbuf = t.spat ∧ t.blk = 2 ∧ t.sub = .expectDc ∧
      t = { s with spat := t.spat, cbbuf := t.cbbuf, blk := t.blk, sub := t.sub })

/-- R160, R161, R166: BLOCK_END of a Y block writes its quadrant of PATCH, each pixel from the luma sample, and the chroma sample at half
the macroblock coordinates; every patch byte outside the quadrant stays, and so does everything
else, CRBUF and CBBUF among it (R31: shared by the four Y blocks), but for the block advance (BlockAdvance). That SPAT still holds the
block after the step is the model's choice (log 15), and so is that the transform may differ with the macroblock's place in its decode,
NP (log 4). -/
def Obligations.LumaBlockConverted : Prop :=
  ∀ (s : State) (qd : Nat), s.phase = .decoding → s.sub = .blockEnd → s.moves = [] → s.blk.val = qd + 2 →
    ∃ t, step s = .next t ∧ t.spat = params.idct s.np s.coef ∧
      (∀ (y x : Fin 8) (c : Fin 3),
        let xOff := 8 * (qd % 2)
        let yOff := 8 * (qd / 2)
        let ci := (y.val + yOff) / 2 * 8 + (x.val + xOff) / 2
        ∃ cb cr, s.cbbuf[ci]? = some cb ∧ s.crbuf[ci]? = some cr ∧
          t.patch[((yOff + y.val) * 16 + (xOff + x.val)) * 3 + c.val]? =
            some (pixel params.colorToInt t.spat[y.val * 8 + x.val] cb cr c)) ∧
      (∀ j : Fin 768, j.val / 3 % 16 / 8 ≠ qd % 2 ∨ j.val / 48 / 8 ≠ qd / 2 → t.patch[j] = s.patch[j]) ∧
      t = { s with spat := t.spat, patch := t.patch, blk := t.blk, sub := t.sub, plist := t.plist, np := t.np }

/-- R164, R165: the 9-bit wrap of any integer is the signed 9-bit value congruent to it, and clamp and flip make of any integer a byte
that is the clamped value offset by 128. -/
def Obligations.NineBitWrapClampFlip : Prop :=
  (∀ v : Int, -256 ≤ sext9 v ∧ sext9 v ≤ 255 ∧ (512 : Int) ∣ v - sext9 v ∧
    sext9 v = (if v % 512 < 256 then v % 512 else v % 512 - 512)) ∧
  ∀ s : Int, ((flipByte (clamp s (-128) 127)).toNat : Int) = max (-128) (min 127 s) + 128

/-- R167 with R163 (whose fixed-point form and single conversion are the spec's own choice, D7): one byte of PIXEL as integers: the exact
channel value converted once, the signed 9-bit value congruent to it, clamped and offset. -/
def Obligations.PixelArithmetic : Prop :=
  ∀ (mode : ColorToInt) (y cb cr : Int) (c : Fin 3), ∃ num v s : Int,
    num = (match c with
      | 0 => 10000 * y + 14020 * cr
      | 1 => 10000 * y - 3437 * cb - 7143 * cr
      | 2 => 10000 * y + 17720 * cb) ∧
    v = (match mode with
      | .trunc => num.sign * ⌊((num.natAbs : ℚ)) / 10000⌋
      | .floor => ⌊(num : ℚ) / 10000⌋
      | .nearest => ⌊(num : ℚ) / 10000 + 1 / 2⌋) ∧
    -256 ≤ s ∧ s ≤ 255 ∧ (512 : Int) ∣ v - s ∧
    ((pixel mode y cb cr c).toNat : Int) = max (-128) (min 127 s) + 128

/-- R162 (the spec's own inference from R161): the chroma samples at the quadrant seam, as positions of the chroma block. -/
def Obligations.ChromaAtQuadrantSeam : Prop :=
  (chromaPos 7 7).val = 27 ∧ (chromaPos 8 8).val = 36 ∧
  ∀ py px : Fin 16, (chromaPos py px).val = py.val / 2 * 8 + px.val / 2 ∧
    (∀ py' px' : Fin 16, chromaPos py' px' = chromaPos py px ↔ py'.val / 2 = py.val / 2 ∧ px'.val / 2 = px.val / 2)

/-- R169 (the spec's own inference from R160, R161): uniform blocks give a uniform macroblock, mid-grey where all are 0, whatever PATCH held before. -/
def Obligations.UniformMacroblockColour : Prop :=
  ∀ (mode : ColorToInt) (Y Cb Cr : Block) (y cb cr : Int) (patch : Patch),
    (∀ p : Fin 64, Y[p] = y) → (∀ p : Fin 64, Cb[p] = cb) → (∀ p : Fin 64, Cr[p] = cr) →
    ∀ j : Fin 768,
      (convert mode 3 Y Cb Cr (convert mode 2 Y Cb Cr (convert mode 1 Y Cb Cr (convert mode 0 Y Cb Cr patch))))[j] =
        pixel mode y cb cr ⟨j.val % 3, by omega⟩ ∧
      pixel mode 0 0 0 ⟨j.val % 3, by omega⟩ = 128#8

/-- R184, R185: the block advance: the next block in order, or, after the sixth, the finished patch appended and NP counted. -/
def Obligations.BlockAdvance : Prop :=
  ∀ s : State, s.phase = .decoding → s.sub = .blockEnd → s.moves = [] → ∃ t, step s = .next t ∧
    t.phase = .decoding ∧ t.cursor = s.cursor ∧ t.image = s.image ∧
    (s.blk.val < 5 → t.blk.val = s.blk.val + 1 ∧ t.sub = .expectDc ∧ t.plist = s.plist ∧ t.np = s.np) ∧
    (s.blk.val = 5 → t.sub = .mbStart ∧ t.plist = s.plist ++ [t.patch] ∧ t.np = s.np + 1)

/-! ### The transform (41_inverse_transform.md) -/

/-- R144: in every admissible instance, the machine's own among them, what BLOCK_END leaves in SPAT is within 1 of the reference transform
of COEF, for every COEF in the clamp range. That SPAT still holds it after the step is the model's choice (log 15), and so is what
admissible asks beyond R105, R144 and R145 (logs 4, 20 and 21). -/
def Obligations.TransformWithinOne : Prop :=
  (∀ s, step s = stepWith params s) ∧ params.Admissible ∧
  ∀ (P : Params) (s : State), P.Admissible → s.coef.InRange → s.phase = .decoding → s.sub = .blockEnd → s.moves = [] →
    ∃ t, stepWith P s = .next t ∧ ∀ p : Fin 64, |(t.spat[p] : ℝ) - sRef P.norm s.coef p| ≤ 1

/-- R145 (its reading of the source is the spec's own choice, D26): in every admissible instance, a DC-only block is replicated exactly
under UNIT_DC, and is one integer under JPEG, within 1 of F[0]/8 where F lies in the clamp range. It is read in SPAT after the step,
which keeps it by the model's choice (log 15). -/
def Obligations.DcOnlyBlockReplicated : Prop :=
  ∀ (P : Params) (s : State), P.Admissible → s.coef.DcOnly → s.phase = .decoding → s.sub = .blockEnd →
    s.moves = [] → ∃ t, stepWith P s = .next t ∧
      match P.norm with
      | .unitDc => ∀ p : Fin 64, t.spat[p] = s.coef[0]
      | .jpeg => ∃ z : Int, (∀ p : Fin 64, t.spat[p] = z) ∧ (s.coef.InRange → |(z : ℝ) - (s.coef[0] : ℝ) / 8| ≤ 1)

/-- R35, and R148's bound (the spec's own inference): the spatial buffers keep within 22 bits. That they hold a value between steps is the
model's choice for SPAT (log 15), after RESET (log 14) and after EndOfStream (log 13). -/
def Obligations.SpatialBuffersFit : Prop :=
  ∀ s t : State, s.coef.InRange → s.SpatialFits → step s = .next t → t.SpatialFits

/-! ### Placement (R189 to R193) -/

/-- R189 (and the loop of R190): the image at DONE entry: each pixel shows the completed patch whose tile covers it, the tiles running
down each column, and keeps its byte where there is none; nothing is written outside the image. The two premises on the state are
clauses of its invariant. -/
def Obligations.DoneImage : Prop :=
  ∀ s t : State, s.plist.length = s.np → Memory.wf s.image → s.phase = .decoding → step s = .next t → t.phase = .done →
    (∀ (ix iy : Nat) (c : Fin 3), ix < s.w → iy < s.h →
      Memory.read t.image ((iy * s.w + ix) * 3 + c.val) =
        match s.plist[ix / 16 * ((s.h + 15) / 16) + iy / 16]? with
        | some p => p[patchPos ⟨iy % 16, by omega⟩ ⟨ix % 16, by omega⟩ c]
        | none => Memory.read s.image ((iy * s.w + ix) * 3 + c.val)) ∧
    (∀ a, s.w * s.h * 3 ≤ a → Memory.read t.image a = Memory.read s.image a)

/-- R192 (the spec's own inference from R189): distinct patch indices write disjoint sets of image bytes. -/
def Obligations.TilesDisjoint : Prop :=
  ∀ (w h i j : Nat) (p p' : Patch), i ≠ j → ∀ c ∈ patchCells w h i p, ∀ d ∈ patchCells w h j p', c.1 ≠ d.1

/-- R191 (the spec's own inference from R189): placing the completed patches in any order gives the image of R190. -/
def Obligations.PlacementOrderIrrelevant : Prop :=
  ∀ (w h np : Nat) (plist : List Patch) (m : Memory) (order : List Nat), Memory.wf m → order.Perm (List.range np) →
    order.foldl (placePatch w h plist) m = placeAll w h np plist m

/-! ### The host's reads, RESET, and what the engine leaves alone -/

/-- R41, R44: READ_STATUS answers STATUS (PHASE in bits 1:0, CAUSE in bits 3:2, the rest 0), NP and CURSOR as 32-bit registers, in every
phase, and changes nothing else. -/
def Obligations.StatusRead : Prop :=
  ∀ (s : State) (rest : List HostMove), s.moves = .readStatus :: rest →
    ∃ st np cur, step s = .next { s with moves := rest, reply := some (.status st np cur) } ∧
      st.toNat = (match s.phase with | .idle => 0 | .decoding => 1 | .done => 2 | .error => 3) +
        4 * (match s.cause with | .none => 0 | .endOfStream => 1 | .invalidInputSize => 2) ∧
      (s.np < 2 ^ 32 → np.toNat = s.np) ∧ (s.cursor < 2 ^ 32 → cur.toNat = s.cursor)

/-- R42: READ_IMAGE answers the image byte in DONE, is refused outside DONE and beyond W*H*3, and changes nothing else. -/
def Obligations.ImageRead : Prop :=
  ∀ (s : State) (i : Nat) (rest : List HostMove), s.moves = .readImage i :: rest →
    (s.phase = .done → i < s.w * s.h * 3 →
      step s = .next { s with moves := rest, reply := some (.byte (Memory.read s.image i)) }) ∧
    (s.phase ≠ .done → step s = .refused .readImageOutsideDone) ∧
    (s.phase = .done → s.w * s.h * 3 ≤ i → step s = .refused .readImageOutOfRange)

/-- R230, R231 (the spec's own event and values, D16): RESET in any phase, DECODING too, leaves R231's values and places nothing. That
every image byte then reads 0 and that the host's further moves stay is the model's choice (log 14). -/
def Obligations.ResetEvent : Prop :=
  ∀ (s : State) (rest : List HostMove), s.moves = .reset :: rest → ∃ t, step s = .next t ∧
    t.phase = .idle ∧ t.cause = .none ∧ t.cursor = 0 ∧ t.np = 0 ∧ t.plist = [] ∧ statusWord t = 0 ∧
    (∀ a, Memory.read t.image a = 0#8) ∧ t.moves = rest

/-- R231 (the spec's own choice, D16): the values RESET gives. -/
def Obligations.ResetValues : Prop :=
  State.reset.phase = .idle ∧ State.reset.cause = .none ∧ State.reset.cursor = 0 ∧ State.reset.np = 0 ∧ State.reset.plist = [] ∧
  statusWord State.reset = 0x00000000#32

/-- R187, R195: outside DECODING, with no host move to handle, nothing changes. That such a step is one that changes nothing, and not a
stop, is the model's choice (log 7). -/
def Obligations.EngineIdleOutsideDecoding : Prop :=
  ∀ s : State, s.phase ≠ .decoding → s.moves = [] → step s = .next s

/-- R195, R230: DONE is left only by a START, in either form, or by RESET. -/
def Obligations.DoneLeftOnlyByStart : Prop :=
  ∀ s t : State, s.phase = .done → step s = .next t → t.phase ≠ .done → ∃ m rest, s.moves = m :: rest ∧
    (m = .reset ∨ (∃ a w h, m = .start a w h) ∨ ∃ a w h, m = .startBytes a w h)

/-- R102, R23, R231: CURSOR changes only by a word read, which adds exactly 1 to it, and START and RESET set it to 0. -/
def Obligations.CursorChangesOnlyByReads : Prop :=
  ∀ s t : State, step s = .next t → t.cursor ≠ s.cursor →
    (t.cursor = s.cursor + 1 ∧ s.phase = .decoding ∧ (s.sub = .expectDc ∨ s.sub = .expectAc) ∧ s.cursor < s.n) ∨
    (t.cursor = 0 ∧ ∃ m rest, s.moves = m :: rest ∧
      (m = .reset ∨ (∃ a w h, m = .start a w h) ∨ ∃ a w h, m = .startBytes a w h))

/-- R21, R64 (the spec's own choice, D19): WORDS, N, W and H are stable while DECODING: only RESET can change them then. That the host has
no move for such a change is log 24. -/
def Obligations.ConfigurationStable : Prop :=
  ∀ s t : State, s.phase = .decoding → step s = .next t → (∀ rest, s.moves ≠ .reset :: rest) →
    t.words = s.words ∧ t.n = s.n ∧ t.w = s.w ∧ t.h = s.h

/-- R34: IMAGE is written only by DONE entry, and by START (its zero fill) and RESET. -/
def Obligations.ImageWrittenOnlyAtDone : Prop :=
  ∀ s t : State, step s = .next t → t.image ≠ s.image →
    (s.phase = .decoding ∧ t.phase = .done) ∨
    (∃ m rest, s.moves = m :: rest ∧ (m = .reset ∨ (∃ a w h, m = .start a w h) ∨ ∃ a w h, m = .startBytes a w h))

/-- R236 (the spec's own choice, D19): during a decode CURSOR and NP rise monotonically, and CAUSE reads NONE until DONE. -/
def Obligations.ProgressMonotone : Prop :=
  ∀ s t : State, s.Inv params → s.phase = .decoding → step s = .next t → (∀ rest, s.moves ≠ .reset :: rest) →
    s.cursor ≤ t.cursor ∧ s.np ≤ t.np ∧ (t.phase = .decoding ∨ t.phase = .done) ∧ (t.phase = .decoding → t.cause = .none)

/-! ### The whole machine -/

/-- R39 (the spec's own inference) with what makes it inductive: every step keeps the invariants, from every state that meets them. For COEF and
IMAGE after RESET this rests on log 14, for COEF after EndOfStream on log 13, and for W, H and WORDS after a failing START on log 10. -/
def Obligations.InvariantsKept : Prop :=
  ∀ s t : State, s.Inv params → step s = .next t → t.Inv params

/-- The invariants hold after RESET; for COEF, IMAGE, W, H and WORDS this rests on the reset values of logs 1 and 2. -/
def Obligations.InvariantsAtReset : Prop :=
  State.reset.Inv params ∧ State.reset.SpatialFits

/-- R188 (the spec's own inference): every decode reaches DONE in at most 2N + 2 engine steps after its START, where the host makes no further move. -/
def Obligations.EveryDecodeTerminates : Prop :=
  ∀ (s : State) (words : List Word) (w h : Int), s.phase ≠ .decoding → s.moves = [.start words w h] →
    words.length ≤ params.maxWords → 0 < w → w ≤ params.maxW → 0 < h → h ≤ params.maxH →
    ∃ k t, k ≤ 2 * words.length + 2 ∧ Host.Core.run Sys2Proof.core (k + 1) s = .next t ∧ t.phase = .done

/-- R194, R232, R233 (the spec's own inferences): what the host can see of a decode does not depend on what the machine held before its START: not on earlier decodes,
nor on any value RESET leaves unspecified. -/
def Obligations.DecodeIndependentOfHistory : Prop :=
  ∀ (s s' : State) (words : List Word) (w h : Int), s.phase ≠ .decoding → s'.phase ≠ .decoding → 0 < w → 0 < h →
    s.moves = [.start words w h] → s'.moves = [.start words w h] →
    ∀ (k : Nat) (t t' : State), Host.Core.run Sys2Proof.core (k + 1) s = .next t →
      Host.Core.run Sys2Proof.core (k + 1) s' = .next t' → visible t = visible t'

/-- R241: an instance that serves each macroblock of a decode with a factorisation of its own is admissible where each conforms, and its
BLOCK_END differs from any other admissible instance's in SPAT, by at most 2, and in the one buffer that the block at hand computes from
SPAT: CRBUF, CBBUF, or PATCH and with the sixth block PLIST. The numbering of macroblocks by NP is the model's choice (log 4), and so is
SPAT after the step (log 15). -/
def Obligations.FactorisationsMayMix : Prop :=
  ∀ (P : Params) (f : Nat → Block → Block), P.Admissible → (∀ n, IdctConforms P.norm (f n)) →
    ({ P with idct := f } : Params).Admissible ∧
    ∀ s : State, s.coef.InRange → s.phase = .decoding → s.sub = .blockEnd → s.moves = [] →
      ∃ t t', stepWith P s = .next t ∧ stepWith { P with idct := f } s = .next t' ∧
        t'.spat = f s.np s.coef ∧ (∀ p : Fin 64, |t.spat[p] - t'.spat[p]| ≤ 2) ∧
        (∀ qd : Fin 4, s.blk.val = qd.val + 2 → t'.patch = convert P.colorToInt qd t'.spat s.cbbuf s.crbuf s.patch) ∧
        t' = { t with spat := t'.spat,
                      crbuf := if s.blk.val = 0 then t'.spat else s.crbuf,
                      cbbuf := if s.blk.val = 1 then t'.spat else s.cbbuf,
                      patch := if s.blk.val < 2 then s.patch else t'.patch,
                      plist := if s.blk.val < 5 then s.plist else s.plist ++ [t'.patch] }

/-- R150: the blocks of one macroblock go through the same IDCT_IMPL: where NP and COEF are equal, BLOCK_END gives the same SPAT, whatever
the block is, and NP stays the same from the first block to the sixth. SPAT after the step is the model's choice (log 15). -/
def Obligations.SameTransformInMacroblock : Prop :=
  ∀ s s' : State, s.phase = .decoding → s.sub = .blockEnd → s.moves = [] → s'.phase = .decoding → s'.sub = .blockEnd → s'.moves = [] →
    s.np = s'.np → s.coef = s'.coef →
    ∃ t t', step s = .next t ∧ step s' = .next t' ∧ t.spat = t'.spat ∧ (s.blk.val < 5 → t.np = s.np)

/-- R146 (the spec's own choice, D6): IDCT_DEFAULT under UNIT_DC: its two arms are one rounding of S_REF, within 1/2 of it, and the spec's
default instance with exactly this transform is admissible, so it meets R144 and R145. Under JPEG it does not conform, which the spec
does not say (log 26). -/
def Obligations.DefaultTransformConforms : Prop :=
  (∀ (F : Block) (p : Fin 64), (F.DcOnly → idctDefault .unitDc F p = F[0]) ∧ idctDefault .unitDc F p = ⌊sRef .unitDc F p + 1 / 2⌋ ∧
    |(idctDefault .unitDc F p : ℝ) - sRef .unitDc F p| ≤ 1 / 2) ∧
  (∀ (qtY qtC : Vector Byte 64) (maxWords maxW maxH : Nat), 0 < maxWords → maxWords < 2 ^ 32 → 0 < maxW → 0 < maxH →
    ({ specDefaults qtY qtC maxWords maxW maxH with idct := fun _ F => Vector.ofFn (idctDefault .unitDc F) } : Params).Admissible) ∧
  ¬IdctConforms .jpeg (fun F => Vector.ofFn (idctDefault .jpeg F))
end

