-- ==== Sys2Proof/Laws/State.lean ====
section
/-! SUPPORT. For each state update of Machine/Ops.lean, what it leaves in each field: one lemma per field per update, all by rfl, for
simp. -/

namespace Sys2Proof.Machine

@[simp] theorem consume_words (s : State) : s.consume.words = s.words := rfl
@[simp] theorem consume_w (s : State) : s.consume.w = s.w := rfl
@[simp] theorem consume_h (s : State) : s.consume.h = s.h := rfl
@[simp] theorem consume_phase (s : State) : s.consume.phase = s.phase := rfl
@[simp] theorem consume_cause (s : State) : s.consume.cause = s.cause := rfl
@[simp] theorem consume_cursor (s : State) : s.consume.cursor = s.cursor + 1 := rfl
@[simp] theorem consume_sub (s : State) : s.consume.sub = s.sub := rfl
@[simp] theorem consume_blk (s : State) : s.consume.blk = s.blk := rfl
@[simp] theorem consume_k (s : State) : s.consume.k = s.k := rfl
@[simp] theorem consume_q (s : State) : s.consume.q = s.q := rfl
@[simp] theorem consume_coef (s : State) : s.consume.coef = s.coef := rfl
@[simp] theorem consume_spat (s : State) : s.consume.spat = s.spat := rfl
@[simp] theorem consume_crbuf (s : State) : s.consume.crbuf = s.crbuf := rfl
@[simp] theorem consume_cbbuf (s : State) : s.consume.cbbuf = s.cbbuf := rfl
@[simp] theorem consume_patch (s : State) : s.consume.patch = s.patch := rfl
@[simp] theorem consume_plist (s : State) : s.consume.plist = s.plist := rfl
@[simp] theorem consume_np (s : State) : s.consume.np = s.np := rfl
@[simp] theorem consume_image (s : State) : s.consume.image = s.image := rfl
@[simp] theorem consume_moves (s : State) : s.consume.moves = s.moves := rfl
@[simp] theorem consume_reply (s : State) : s.consume.reply = s.reply := rfl

@[simp] theorem setSub_words (s : State) (x : Sub) : (s.setSub x).words = s.words := rfl
@[simp] theorem setSub_w (s : State) (x : Sub) : (s.setSub x).w = s.w := rfl
@[simp] theorem setSub_h (s : State) (x : Sub) : (s.setSub x).h = s.h := rfl
@[simp] theorem setSub_phase (s : State) (x : Sub) : (s.setSub x).phase = s.phase := rfl
@[simp] theorem setSub_cause (s : State) (x : Sub) : (s.setSub x).cause = s.cause := rfl
@[simp] theorem setSub_cursor (s : State) (x : Sub) : (s.setSub x).cursor = s.cursor := rfl
@[simp] theorem setSub_sub (s : State) (x : Sub) : (s.setSub x).sub = x := rfl
@[simp] theorem setSub_blk (s : State) (x : Sub) : (s.setSub x).blk = s.blk := rfl
@[simp] theorem setSub_k (s : State) (x : Sub) : (s.setSub x).k = s.k := rfl
@[simp] theorem setSub_q (s : State) (x : Sub) : (s.setSub x).q = s.q := rfl
@[simp] theorem setSub_coef (s : State) (x : Sub) : (s.setSub x).coef = s.coef := rfl
@[simp] theorem setSub_spat (s : State) (x : Sub) : (s.setSub x).spat = s.spat := rfl
@[simp] theorem setSub_crbuf (s : State) (x : Sub) : (s.setSub x).crbuf = s.crbuf := rfl
@[simp] theorem setSub_cbbuf (s : State) (x : Sub) : (s.setSub x).cbbuf = s.cbbuf := rfl
@[simp] theorem setSub_patch (s : State) (x : Sub) : (s.setSub x).patch = s.patch := rfl
@[simp] theorem setSub_plist (s : State) (x : Sub) : (s.setSub x).plist = s.plist := rfl
@[simp] theorem setSub_np (s : State) (x : Sub) : (s.setSub x).np = s.np := rfl
@[simp] theorem setSub_image (s : State) (x : Sub) : (s.setSub x).image = s.image := rfl
@[simp] theorem setSub_moves (s : State) (x : Sub) : (s.setSub x).moves = s.moves := rfl
@[simp] theorem setSub_reply (s : State) (x : Sub) : (s.setSub x).reply = s.reply := rfl

@[simp] theorem loadDc_words (s : State) (a : BitVec 6) (v : Int) : (s.loadDc a v).words = s.words := rfl
@[simp] theorem loadDc_w (s : State) (a : BitVec 6) (v : Int) : (s.loadDc a v).w = s.w := rfl
@[simp] theorem loadDc_h (s : State) (a : BitVec 6) (v : Int) : (s.loadDc a v).h = s.h := rfl
@[simp] theorem loadDc_phase (s : State) (a : BitVec 6) (v : Int) : (s.loadDc a v).phase = s.phase := rfl
@[simp] theorem loadDc_cause (s : State) (a : BitVec 6) (v : Int) : (s.loadDc a v).cause = s.cause := rfl
@[simp] theorem loadDc_cursor (s : State) (a : BitVec 6) (v : Int) : (s.loadDc a v).cursor = s.cursor := rfl
@[simp] theorem loadDc_sub (s : State) (a : BitVec 6) (v : Int) : (s.loadDc a v).sub = .expectAc := rfl
@[simp] theorem loadDc_blk (s : State) (a : BitVec 6) (v : Int) : (s.loadDc a v).blk = s.blk := rfl
@[simp] theorem loadDc_k (s : State) (a : BitVec 6) (v : Int) : (s.loadDc a v).k = 1 := rfl
@[simp] theorem loadDc_q (s : State) (a : BitVec 6) (v : Int) : (s.loadDc a v).q = a := rfl
@[simp] theorem loadDc_coef (s : State) (a : BitVec 6) (v : Int) : (s.loadDc a v).coef = Block.zero.set 0 v := rfl
@[simp] theorem loadDc_spat (s : State) (a : BitVec 6) (v : Int) : (s.loadDc a v).spat = s.spat := rfl
@[simp] theorem loadDc_crbuf (s : State) (a : BitVec 6) (v : Int) : (s.loadDc a v).crbuf = s.crbuf := rfl
@[simp] theorem loadDc_cbbuf (s : State) (a : BitVec 6) (v : Int) : (s.loadDc a v).cbbuf = s.cbbuf := rfl
@[simp] theorem loadDc_patch (s : State) (a : BitVec 6) (v : Int) : (s.loadDc a v).patch = s.patch := rfl
@[simp] theorem loadDc_plist (s : State) (a : BitVec 6) (v : Int) : (s.loadDc a v).plist = s.plist := rfl
@[simp] theorem loadDc_np (s : State) (a : BitVec 6) (v : Int) : (s.loadDc a v).np = s.np := rfl
@[simp] theorem loadDc_image (s : State) (a : BitVec 6) (v : Int) : (s.loadDc a v).image = s.image := rfl
@[simp] theorem loadDc_moves (s : State) (a : BitVec 6) (v : Int) : (s.loadDc a v).moves = s.moves := rfl
@[simp] theorem loadDc_reply (s : State) (a : BitVec 6) (v : Int) : (s.loadDc a v).reply = s.reply := rfl

@[simp] theorem overrun_words (s : State) (j : Nat) : (s.overrun j).words = s.words := rfl
@[simp] theorem overrun_w (s : State) (j : Nat) : (s.overrun j).w = s.w := rfl
@[simp] theorem overrun_h (s : State) (j : Nat) : (s.overrun j).h = s.h := rfl
@[simp] theorem overrun_phase (s : State) (j : Nat) : (s.overrun j).phase = s.phase := rfl
@[simp] theorem overrun_cause (s : State) (j : Nat) : (s.overrun j).cause = s.cause := rfl
@[simp] theorem overrun_cursor (s : State) (j : Nat) : (s.overrun j).cursor = s.cursor := rfl
@[simp] theorem overrun_sub (s : State) (j : Nat) : (s.overrun j).sub = .blockEnd := rfl
@[simp] theorem overrun_blk (s : State) (j : Nat) : (s.overrun j).blk = s.blk := rfl
@[simp] theorem overrun_k (s : State) (j : Nat) : (s.overrun j).k = BitVec.ofNat 7 j := rfl
@[simp] theorem overrun_q (s : State) (j : Nat) : (s.overrun j).q = s.q := rfl
@[simp] theorem overrun_coef (s : State) (j : Nat) : (s.overrun j).coef = s.coef := rfl
@[simp] theorem overrun_spat (s : State) (j : Nat) : (s.overrun j).spat = s.spat := rfl
@[simp] theorem overrun_crbuf (s : State) (j : Nat) : (s.overrun j).crbuf = s.crbuf := rfl
@[simp] theorem overrun_cbbuf (s : State) (j : Nat) : (s.overrun j).cbbuf = s.cbbuf := rfl
@[simp] theorem overrun_patch (s : State) (j : Nat) : (s.overrun j).patch = s.patch := rfl
@[simp] theorem overrun_plist (s : State) (j : Nat) : (s.overrun j).plist = s.plist := rfl
@[simp] theorem overrun_np (s : State) (j : Nat) : (s.overrun j).np = s.np := rfl
@[simp] theorem overrun_image (s : State) (j : Nat) : (s.overrun j).image = s.image := rfl
@[simp] theorem overrun_moves (s : State) (j : Nat) : (s.overrun j).moves = s.moves := rfl
@[simp] theorem overrun_reply (s : State) (j : Nat) : (s.overrun j).reply = s.reply := rfl

@[simp] theorem storeAc_words (s : State) (j : Nat) (p : Fin 64) (v : Int) : (s.storeAc j p v).words = s.words := rfl
@[simp] theorem storeAc_w (s : State) (j : Nat) (p : Fin 64) (v : Int) : (s.storeAc j p v).w = s.w := rfl
@[simp] theorem storeAc_h (s : State) (j : Nat) (p : Fin 64) (v : Int) : (s.storeAc j p v).h = s.h := rfl
@[simp] theorem storeAc_phase (s : State) (j : Nat) (p : Fin 64) (v : Int) : (s.storeAc j p v).phase = s.phase := rfl
@[simp] theorem storeAc_cause (s : State) (j : Nat) (p : Fin 64) (v : Int) : (s.storeAc j p v).cause = s.cause := rfl
@[simp] theorem storeAc_cursor (s : State) (j : Nat) (p : Fin 64) (v : Int) : (s.storeAc j p v).cursor = s.cursor := rfl
@[simp] theorem storeAc_sub (s : State) (j : Nat) (p : Fin 64) (v : Int) : (s.storeAc j p v).sub = if j + 1 ≥ 64 then .blockEnd else s.sub := rfl
@[simp] theorem storeAc_blk (s : State) (j : Nat) (p : Fin 64) (v : Int) : (s.storeAc j p v).blk = s.blk := rfl
@[simp] theorem storeAc_k (s : State) (j : Nat) (p : Fin 64) (v : Int) : (s.storeAc j p v).k = BitVec.ofNat 7 (j + 1) := rfl
@[simp] theorem storeAc_q (s : State) (j : Nat) (p : Fin 64) (v : Int) : (s.storeAc j p v).q = s.q := rfl
@[simp] theorem storeAc_coef (s : State) (j : Nat) (p : Fin 64) (v : Int) : (s.storeAc j p v).coef = s.coef.set p v := rfl
@[simp] theorem storeAc_spat (s : State) (j : Nat) (p : Fin 64) (v : Int) : (s.storeAc j p v).spat = s.spat := rfl
@[simp] theorem storeAc_crbuf (s : State) (j : Nat) (p : Fin 64) (v : Int) : (s.storeAc j p v).crbuf = s.crbuf := rfl
@[simp] theorem storeAc_cbbuf (s : State) (j : Nat) (p : Fin 64) (v : Int) : (s.storeAc j p v).cbbuf = s.cbbuf := rfl
@[simp] theorem storeAc_patch (s : State) (j : Nat) (p : Fin 64) (v : Int) : (s.storeAc j p v).patch = s.patch := rfl
@[simp] theorem storeAc_plist (s : State) (j : Nat) (p : Fin 64) (v : Int) : (s.storeAc j p v).plist = s.plist := rfl
@[simp] theorem storeAc_np (s : State) (j : Nat) (p : Fin 64) (v : Int) : (s.storeAc j p v).np = s.np := rfl
@[simp] theorem storeAc_image (s : State) (j : Nat) (p : Fin 64) (v : Int) : (s.storeAc j p v).image = s.image := rfl
@[simp] theorem storeAc_moves (s : State) (j : Nat) (p : Fin 64) (v : Int) : (s.storeAc j p v).moves = s.moves := rfl
@[simp] theorem storeAc_reply (s : State) (j : Nat) (p : Fin 64) (v : Int) : (s.storeAc j p v).reply = s.reply := rfl

@[simp] theorem beginMacroblock_words (s : State) : s.beginMacroblock.words = s.words := rfl
@[simp] theorem beginMacroblock_w (s : State) : s.beginMacroblock.w = s.w := rfl
@[simp] theorem beginMacroblock_h (s : State) : s.beginMacroblock.h = s.h := rfl
@[simp] theorem beginMacroblock_phase (s : State) : s.beginMacroblock.phase = s.phase := rfl
@[simp] theorem beginMacroblock_cause (s : State) : s.beginMacroblock.cause = s.cause := rfl
@[simp] theorem beginMacroblock_cursor (s : State) : s.beginMacroblock.cursor = s.cursor := rfl
@[simp] theorem beginMacroblock_sub (s : State) : s.beginMacroblock.sub = .expectDc := rfl
@[simp] theorem beginMacroblock_blk (s : State) : s.beginMacroblock.blk = 0 := rfl
@[simp] theorem beginMacroblock_k (s : State) : s.beginMacroblock.k = s.k := rfl
@[simp] theorem beginMacroblock_q (s : State) : s.beginMacroblock.q = s.q := rfl
@[simp] theorem beginMacroblock_coef (s : State) : s.beginMacroblock.coef = s.coef := rfl
@[simp] theorem beginMacroblock_spat (s : State) : s.beginMacroblock.spat = s.spat := rfl
@[simp] theorem beginMacroblock_crbuf (s : State) : s.beginMacroblock.crbuf = s.crbuf := rfl
@[simp] theorem beginMacroblock_cbbuf (s : State) : s.beginMacroblock.cbbuf = s.cbbuf := rfl
@[simp] theorem beginMacroblock_patch (s : State) : s.beginMacroblock.patch = s.patch := rfl
@[simp] theorem beginMacroblock_plist (s : State) : s.beginMacroblock.plist = s.plist := rfl
@[simp] theorem beginMacroblock_np (s : State) : s.beginMacroblock.np = s.np := rfl
@[simp] theorem beginMacroblock_image (s : State) : s.beginMacroblock.image = s.image := rfl
@[simp] theorem beginMacroblock_moves (s : State) : s.beginMacroblock.moves = s.moves := rfl
@[simp] theorem beginMacroblock_reply (s : State) : s.beginMacroblock.reply = s.reply := rfl

@[simp] theorem nextBlock_words (s : State) (b : Fin 6) : (s.nextBlock b).words = s.words := rfl
@[simp] theorem nextBlock_w (s : State) (b : Fin 6) : (s.nextBlock b).w = s.w := rfl
@[simp] theorem nextBlock_h (s : State) (b : Fin 6) : (s.nextBlock b).h = s.h := rfl
@[simp] theorem nextBlock_phase (s : State) (b : Fin 6) : (s.nextBlock b).phase = s.phase := rfl
@[simp] theorem nextBlock_cause (s : State) (b : Fin 6) : (s.nextBlock b).cause = s.cause := rfl
@[simp] theorem nextBlock_cursor (s : State) (b : Fin 6) : (s.nextBlock b).cursor = s.cursor := rfl
@[simp] theorem nextBlock_sub (s : State) (b : Fin 6) : (s.nextBlock b).sub = .expectDc := rfl
@[simp] theorem nextBlock_blk (s : State) (b : Fin 6) : (s.nextBlock b).blk = b := rfl
@[simp] theorem nextBlock_k (s : State) (b : Fin 6) : (s.nextBlock b).k = s.k := rfl
@[simp] theorem nextBlock_q (s : State) (b : Fin 6) : (s.nextBlock b).q = s.q := rfl
@[simp] theorem nextBlock_coef (s : State) (b : Fin 6) : (s.nextBlock b).coef = s.coef := rfl
@[simp] theorem nextBlock_spat (s : State) (b : Fin 6) : (s.nextBlock b).spat = s.spat := rfl
@[simp] theorem nextBlock_crbuf (s : State) (b : Fin 6) : (s.nextBlock b).crbuf = s.crbuf := rfl
@[simp] theorem nextBlock_cbbuf (s : State) (b : Fin 6) : (s.nextBlock b).cbbuf = s.cbbuf := rfl
@[simp] theorem nextBlock_patch (s : State) (b : Fin 6) : (s.nextBlock b).patch = s.patch := rfl
@[simp] theorem nextBlock_plist (s : State) (b : Fin 6) : (s.nextBlock b).plist = s.plist := rfl
@[simp] theorem nextBlock_np (s : State) (b : Fin 6) : (s.nextBlock b).np = s.np := rfl
@[simp] theorem nextBlock_image (s : State) (b : Fin 6) : (s.nextBlock b).image = s.image := rfl
@[simp] theorem nextBlock_moves (s : State) (b : Fin 6) : (s.nextBlock b).moves = s.moves := rfl
@[simp] theorem nextBlock_reply (s : State) (b : Fin 6) : (s.nextBlock b).reply = s.reply := rfl

@[simp] theorem completeMacroblock_words (s : State) : s.completeMacroblock.words = s.words := rfl
@[simp] theorem completeMacroblock_w (s : State) : s.completeMacroblock.w = s.w := rfl
@[simp] theorem completeMacroblock_h (s : State) : s.completeMacroblock.h = s.h := rfl
@[simp] theorem completeMacroblock_phase (s : State) : s.completeMacroblock.phase = s.phase := rfl
@[simp] theorem completeMacroblock_cause (s : State) : s.completeMacroblock.cause = s.cause := rfl
@[simp] theorem completeMacroblock_cursor (s : State) : s.completeMacroblock.cursor = s.cursor := rfl
@[simp] theorem completeMacroblock_sub (s : State) : s.completeMacroblock.sub = .mbStart := rfl
@[simp] theorem completeMacroblock_blk (s : State) : s.completeMacroblock.blk = s.blk := rfl
@[simp] theorem completeMacroblock_k (s : State) : s.completeMacroblock.k = s.k := rfl
@[simp] theorem completeMacroblock_q (s : State) : s.completeMacroblock.q = s.q := rfl
@[simp] theorem completeMacroblock_coef (s : State) : s.completeMacroblock.coef = s.coef := rfl
@[simp] theorem completeMacroblock_spat (s : State) : s.completeMacroblock.spat = s.spat := rfl
@[simp] theorem completeMacroblock_crbuf (s : State) : s.completeMacroblock.crbuf = s.crbuf := rfl
@[simp] theorem completeMacroblock_cbbuf (s : State) : s.completeMacroblock.cbbuf = s.cbbuf := rfl
@[simp] theorem completeMacroblock_patch (s : State) : s.completeMacroblock.patch = s.patch := rfl
@[simp] theorem completeMacroblock_plist (s : State) : s.completeMacroblock.plist = s.plist ++ [s.patch] := rfl
@[simp] theorem completeMacroblock_np (s : State) : s.completeMacroblock.np = s.np + 1 := rfl
@[simp] theorem completeMacroblock_image (s : State) : s.completeMacroblock.image = s.image := rfl
@[simp] theorem completeMacroblock_moves (s : State) : s.completeMacroblock.moves = s.moves := rfl
@[simp] theorem completeMacroblock_reply (s : State) : s.completeMacroblock.reply = s.reply := rfl

@[simp] theorem initDecode_words (s : State) (ws : List Word) (x y : Nat) : (s.initDecode ws x y).words = ws := rfl
@[simp] theorem initDecode_w (s : State) (ws : List Word) (x y : Nat) : (s.initDecode ws x y).w = x := rfl
@[simp] theorem initDecode_h (s : State) (ws : List Word) (x y : Nat) : (s.initDecode ws x y).h = y := rfl
@[simp] theorem initDecode_phase (s : State) (ws : List Word) (x y : Nat) : (s.initDecode ws x y).phase = .decoding := rfl
@[simp] theorem initDecode_cause (s : State) (ws : List Word) (x y : Nat) : (s.initDecode ws x y).cause = .none := rfl
@[simp] theorem initDecode_cursor (s : State) (ws : List Word) (x y : Nat) : (s.initDecode ws x y).cursor = 0 := rfl
@[simp] theorem initDecode_sub (s : State) (ws : List Word) (x y : Nat) : (s.initDecode ws x y).sub = .mbStart := rfl
@[simp] theorem initDecode_blk (s : State) (ws : List Word) (x y : Nat) : (s.initDecode ws x y).blk = s.blk := rfl
@[simp] theorem initDecode_k (s : State) (ws : List Word) (x y : Nat) : (s.initDecode ws x y).k = s.k := rfl
@[simp] theorem initDecode_q (s : State) (ws : List Word) (x y : Nat) : (s.initDecode ws x y).q = s.q := rfl
@[simp] theorem initDecode_coef (s : State) (ws : List Word) (x y : Nat) : (s.initDecode ws x y).coef = s.coef := rfl
@[simp] theorem initDecode_spat (s : State) (ws : List Word) (x y : Nat) : (s.initDecode ws x y).spat = s.spat := rfl
@[simp] theorem initDecode_crbuf (s : State) (ws : List Word) (x y : Nat) : (s.initDecode ws x y).crbuf = s.crbuf := rfl
@[simp] theorem initDecode_cbbuf (s : State) (ws : List Word) (x y : Nat) : (s.initDecode ws x y).cbbuf = s.cbbuf := rfl
@[simp] theorem initDecode_patch (s : State) (ws : List Word) (x y : Nat) : (s.initDecode ws x y).patch = s.patch := rfl
@[simp] theorem initDecode_plist (s : State) (ws : List Word) (x y : Nat) : (s.initDecode ws x y).plist = [] := rfl
@[simp] theorem initDecode_np (s : State) (ws : List Word) (x y : Nat) : (s.initDecode ws x y).np = 0 := rfl
@[simp] theorem initDecode_image (s : State) (ws : List Word) (x y : Nat) : (s.initDecode ws x y).image = [] := rfl
@[simp] theorem initDecode_moves (s : State) (ws : List Word) (x y : Nat) : (s.initDecode ws x y).moves = s.moves := rfl
@[simp] theorem initDecode_reply (s : State) (ws : List Word) (x y : Nat) : (s.initDecode ws x y).reply = s.reply := rfl

@[simp] theorem enterDone_words (s : State) : s.enterDone.words = s.words := rfl
@[simp] theorem enterDone_w (s : State) : s.enterDone.w = s.w := rfl
@[simp] theorem enterDone_h (s : State) : s.enterDone.h = s.h := rfl
@[simp] theorem enterDone_phase (s : State) : s.enterDone.phase = .done := rfl
@[simp] theorem enterDone_cause (s : State) : s.enterDone.cause = s.cause := rfl
@[simp] theorem enterDone_cursor (s : State) : s.enterDone.cursor = s.cursor := rfl
@[simp] theorem enterDone_sub (s : State) : s.enterDone.sub = s.sub := rfl
@[simp] theorem enterDone_blk (s : State) : s.enterDone.blk = s.blk := rfl
@[simp] theorem enterDone_k (s : State) : s.enterDone.k = s.k := rfl
@[simp] theorem enterDone_q (s : State) : s.enterDone.q = s.q := rfl
@[simp] theorem enterDone_coef (s : State) : s.enterDone.coef = s.coef := rfl
@[simp] theorem enterDone_spat (s : State) : s.enterDone.spat = s.spat := rfl
@[simp] theorem enterDone_crbuf (s : State) : s.enterDone.crbuf = s.crbuf := rfl
@[simp] theorem enterDone_cbbuf (s : State) : s.enterDone.cbbuf = s.cbbuf := rfl
@[simp] theorem enterDone_patch (s : State) : s.enterDone.patch = s.patch := rfl
@[simp] theorem enterDone_plist (s : State) : s.enterDone.plist = s.plist := rfl
@[simp] theorem enterDone_np (s : State) : s.enterDone.np = s.np := rfl
@[simp] theorem enterDone_image (s : State) : s.enterDone.image = placeAll s.w s.h s.np s.plist s.image := rfl
@[simp] theorem enterDone_moves (s : State) : s.enterDone.moves = s.moves := rfl
@[simp] theorem enterDone_reply (s : State) : s.enterDone.reply = s.reply := rfl

@[simp] theorem setMoves_words (s : State) (ms : List HostMove) : (s.setMoves ms).words = s.words := rfl
@[simp] theorem setMoves_w (s : State) (ms : List HostMove) : (s.setMoves ms).w = s.w := rfl
@[simp] theorem setMoves_h (s : State) (ms : List HostMove) : (s.setMoves ms).h = s.h := rfl
@[simp] theorem setMoves_phase (s : State) (ms : List HostMove) : (s.setMoves ms).phase = s.phase := rfl
@[simp] theorem setMoves_cause (s : State) (ms : List HostMove) : (s.setMoves ms).cause = s.cause := rfl
@[simp] theorem setMoves_cursor (s : State) (ms : List HostMove) : (s.setMoves ms).cursor = s.cursor := rfl
@[simp] theorem setMoves_sub (s : State) (ms : List HostMove) : (s.setMoves ms).sub = s.sub := rfl
@[simp] theorem setMoves_blk (s : State) (ms : List HostMove) : (s.setMoves ms).blk = s.blk := rfl
@[simp] theorem setMoves_k (s : State) (ms : List HostMove) : (s.setMoves ms).k = s.k := rfl
@[simp] theorem setMoves_q (s : State) (ms : List HostMove) : (s.setMoves ms).q = s.q := rfl
@[simp] theorem setMoves_coef (s : State) (ms : List HostMove) : (s.setMoves ms).coef = s.coef := rfl
@[simp] theorem setMoves_spat (s : State) (ms : List HostMove) : (s.setMoves ms).spat = s.spat := rfl
@[simp] theorem setMoves_crbuf (s : State) (ms : List HostMove) : (s.setMoves ms).crbuf = s.crbuf := rfl
@[simp] theorem setMoves_cbbuf (s : State) (ms : List HostMove) : (s.setMoves ms).cbbuf = s.cbbuf := rfl
@[simp] theorem setMoves_patch (s : State) (ms : List HostMove) : (s.setMoves ms).patch = s.patch := rfl
@[simp] theorem setMoves_plist (s : State) (ms : List HostMove) : (s.setMoves ms).plist = s.plist := rfl
@[simp] theorem setMoves_np (s : State) (ms : List HostMove) : (s.setMoves ms).np = s.np := rfl
@[simp] theorem setMoves_image (s : State) (ms : List HostMove) : (s.setMoves ms).image = s.image := rfl
@[simp] theorem setMoves_moves (s : State) (ms : List HostMove) : (s.setMoves ms).moves = ms := rfl
@[simp] theorem setMoves_reply (s : State) (ms : List HostMove) : (s.setMoves ms).reply = s.reply := rfl

@[simp] theorem answer_words (s : State) (r : HostReply) : (s.answer r).words = s.words := rfl
@[simp] theorem answer_w (s : State) (r : HostReply) : (s.answer r).w = s.w := rfl
@[simp] theorem answer_h (s : State) (r : HostReply) : (s.answer r).h = s.h := rfl
@[simp] theorem answer_phase (s : State) (r : HostReply) : (s.answer r).phase = s.phase := rfl
@[simp] theorem answer_cause (s : State) (r : HostReply) : (s.answer r).cause = s.cause := rfl
@[simp] theorem answer_cursor (s : State) (r : HostReply) : (s.answer r).cursor = s.cursor := rfl
@[simp] theorem answer_sub (s : State) (r : HostReply) : (s.answer r).sub = s.sub := rfl
@[simp] theorem answer_blk (s : State) (r : HostReply) : (s.answer r).blk = s.blk := rfl
@[simp] theorem answer_k (s : State) (r : HostReply) : (s.answer r).k = s.k := rfl
@[simp] theorem answer_q (s : State) (r : HostReply) : (s.answer r).q = s.q := rfl
@[simp] theorem answer_coef (s : State) (r : HostReply) : (s.answer r).coef = s.coef := rfl
@[simp] theorem answer_spat (s : State) (r : HostReply) : (s.answer r).spat = s.spat := rfl
@[simp] theorem answer_crbuf (s : State) (r : HostReply) : (s.answer r).crbuf = s.crbuf := rfl
@[simp] theorem answer_cbbuf (s : State) (r : HostReply) : (s.answer r).cbbuf = s.cbbuf := rfl
@[simp] theorem answer_patch (s : State) (r : HostReply) : (s.answer r).patch = s.patch := rfl
@[simp] theorem answer_plist (s : State) (r : HostReply) : (s.answer r).plist = s.plist := rfl
@[simp] theorem answer_np (s : State) (r : HostReply) : (s.answer r).np = s.np := rfl
@[simp] theorem answer_image (s : State) (r : HostReply) : (s.answer r).image = s.image := rfl
@[simp] theorem answer_moves (s : State) (r : HostReply) : (s.answer r).moves = s.moves := rfl
@[simp] theorem answer_reply (s : State) (r : HostReply) : (s.answer r).reply = some r := rfl

@[simp] theorem consume_n (s : State) : s.consume.n = s.n := rfl
@[simp] theorem enterDone_n (s : State) : s.enterDone.n = s.n := rfl
@[simp] theorem initDecode_n (s : State) (ws : List Word) (x y : Nat) : (s.initDecode ws x y).n = ws.length := rfl

end Sys2Proof.Machine
end

