-- ==== Sys2Proof/Laws/Memory.lean ====
section
/-! SUPPORT. The laws of the image memory: a read after a write, the canonical form every operation keeps, and that canonical memories
with equal reads are equal. -/

namespace Sys2Proof.Machine

@[simp] theorem read_nil (a : Nat) : Memory.read [] a = unlistedByte := rfl

theorem read_cons (a' : Nat) (b : Byte) (m : Memory) (a : Nat) :
    Memory.read ((a', b) :: m) a = if a = a' then b else Memory.read m a := rfl

/-- An address below every listed one is unlisted. -/
theorem read_of_lt {m : Memory} {a : Nat} (h : ∀ c ∈ m, a < c.1) : Memory.read m a = unlistedByte := by
  induction m with
  | nil => rfl
  | cons c m ih =>
    obtain ⟨a', b⟩ := c
    have h1 : a < a' := h (a', b) (by simp)
    rw [read_cons, if_neg (by omega)]
    exact ih fun c hc => h c (by simp [hc])

theorem read_put {m : Memory} {a : Nat} (b : Byte) (h : Memory.read m a = unlistedByte) (x : Nat) :
    Memory.read (Memory.put a b m) x = if x = a then b else Memory.read m x := by
  unfold Memory.put
  split
  · split
    · subst x; rw [h, ‹b = unlistedByte›]
    · rfl
  · exact read_cons a b m x

theorem wf_tail {c : Host.Cell} {m : Memory} (h : Memory.wf (c :: m)) : Memory.wf m :=
  ⟨h.1.tail, fun d hd => h.2 d (by simp [hd])⟩

theorem wf_head_lt {c : Host.Cell} {m : Memory} (h : Memory.wf (c :: m)) : ∀ d ∈ m, c.1 < d.1 :=
  (List.pairwise_cons.1 h.1).1

/-- A read after a write: the written byte at the address written, and at every other address what was there. -/
theorem read_write {m : Memory} (h : Memory.wf m) (a : Nat) (b : Byte) (x : Nat) :
    Memory.read (Memory.write m a b) x = if x = a then b else Memory.read m x := by
  induction m with
  | nil => exact read_put b rfl x
  | cons c m ih =>
    obtain ⟨a', b'⟩ := c
    have hlt := wf_head_lt h
    simp only [Memory.write]
    split
    · refine read_put b (read_of_lt fun d hd => ?_) x
      rcases List.mem_cons.1 hd with rfl | hd
      · assumption
      · exact lt_trans ‹_› (hlt d hd)
    · split
      · subst a'
        rw [read_put b (read_of_lt hlt), read_cons]
        split <;> rfl
      · rw [read_cons, read_cons, ih (wf_tail h)]
        split
        · rw [if_neg (by omega)]
        · rfl

theorem mem_put {a : Nat} {b : Byte} {m : Memory} {c : Host.Cell} (h : c ∈ Memory.put a b m) : c = (a, b) ∨ c ∈ m := by
  unfold Memory.put at h
  split at h
  · exact .inr h
  · exact List.mem_cons.1 h

/-- A write lists no address but the written one and those listed before. -/
theorem mem_write {m : Memory} {a : Nat} {b : Byte} {c : Host.Cell} (h : c ∈ Memory.write m a b) : c = (a, b) ∨ c ∈ m := by
  induction m with
  | nil => exact mem_put h
  | cons d m ih =>
    obtain ⟨a', b'⟩ := d
    simp only [Memory.write] at h
    split at h
    · exact mem_put h
    · split at h
      · exact (mem_put h).imp_right (List.mem_cons_of_mem _)
      · rcases List.mem_cons.1 h with rfl | h
        · exact .inr (by simp)
        · exact (ih h).imp_right (List.mem_cons_of_mem _)

theorem wf_put {a : Nat} {b : Byte} {m : Memory} (h : Memory.wf m) (hlt : ∀ c ∈ m, a < c.1) : Memory.wf (Memory.put a b m) := by
  unfold Memory.put
  split
  · exact h
  · refine ⟨List.pairwise_cons.2 ⟨hlt, h.1⟩, fun c hc => ?_⟩
    rcases List.mem_cons.1 hc with rfl | hc
    · assumption
    · exact h.2 c hc

/-- A write keeps the canonical form. -/
theorem wf_write {m : Memory} (h : Memory.wf m) (a : Nat) (b : Byte) : Memory.wf (Memory.write m a b) := by
  induction m with
  | nil => exact wf_put h (by simp)
  | cons d m ih =>
    obtain ⟨a', b'⟩ := d
    have hlt := wf_head_lt h
    simp only [Memory.write]
    split
    · refine wf_put h fun c hc => ?_
      rcases List.mem_cons.1 hc with rfl | hc
      · assumption
      · exact lt_trans ‹_› (hlt c hc)
    · split
      · subst a'
        exact wf_put (wf_tail h) hlt
      · have hm := ih (wf_tail h)
        refine ⟨List.pairwise_cons.2 ⟨fun c hc => ?_, hm.1⟩, fun c hc => ?_⟩
        · rcases mem_write hc with rfl | hc
          · show a' < a
            omega
          · exact hlt c hc
        · rcases List.mem_cons.1 hc with rfl | hc
          · exact h.2 _ (by simp)
          · exact hm.2 c hc

/-- Canonical memories with equal reads are equal. -/
theorem memory_ext {m m' : Memory} (h : Memory.wf m) (h' : Memory.wf m') (e : ∀ a, Memory.read m a = Memory.read m' a) :
    m = m' := by
  induction m generalizing m' with
  | nil =>
    cases m' with
    | nil => rfl
    | cons d m' =>
      have := e d.1
      obtain ⟨a', b'⟩ := d
      rw [read_nil, read_cons, if_pos rfl] at this
      exact absurd this.symm (h'.2 (a', b') (by simp))
  | cons c m ih =>
    obtain ⟨a, b⟩ := c
    cases m' with
    | nil =>
      have := e a
      rw [read_nil, read_cons, if_pos rfl] at this
      exact absurd this (h.2 (a, b) (by simp))
    | cons d m' =>
      obtain ⟨a', b'⟩ := d
      have hb : b ≠ unlistedByte := h.2 (a, b) (by simp)
      have hb' : b' ≠ unlistedByte := h'.2 (a', b') (by simp)
      have ha : a = a' := by
        rcases lt_trichotomy a a' with hlt | heq | hlt
        · have := e a
          rw [read_cons, if_pos rfl, read_of_lt] at this
          · exact absurd this hb
          · intro c hc
            rcases List.mem_cons.1 hc with rfl | hc
            · exact hlt
            · exact lt_trans hlt (wf_head_lt h' c hc)
        · exact heq
        · have := e a'
          rw [read_of_lt, read_cons, if_pos rfl] at this
          · exact absurd this.symm hb'
          · intro c hc
            rcases List.mem_cons.1 hc with rfl | hc
            · exact hlt
            · exact lt_trans hlt (wf_head_lt h c hc)
      subst a'
      have hbb : b = b' := by simpa [read_cons] using e a
      subst b'
      congr 1
      refine ih (wf_tail h) (wf_tail h') fun x => ?_
      by_cases hx : x = a
      · subst x
        rw [read_of_lt (wf_head_lt h), read_of_lt (wf_head_lt h')]
      · simpa [read_cons, hx] using e x

theorem wf_writeAll {m : Memory} (h : Memory.wf m) (cells : List Host.Cell) : Memory.wf (Memory.writeAll m cells) := by
  unfold Memory.writeAll
  induction cells generalizing m with
  | nil => exact h
  | cons c cells ih => exact ih (wf_write h c.1 c.2)

theorem mem_writeAll {m : Memory} {cells : List Host.Cell} {c : Host.Cell} (h : c ∈ Memory.writeAll m cells) :
    c ∈ cells ∨ c ∈ m := by
  unfold Memory.writeAll at h
  induction cells generalizing m with
  | nil => exact .inr h
  | cons d cells ih =>
    rcases ih h with h | h
    · exact .inl (List.mem_cons_of_mem _ h)
    · exact (mem_write h).imp_left fun e => by simp [e]

/-- Cells that do not name an address leave it. -/
theorem read_writeAll_of_notMem {m : Memory} (h : Memory.wf m) {cells : List Host.Cell} {x : Nat} (hx : ∀ c ∈ cells, c.1 ≠ x) :
    Memory.read (Memory.writeAll m cells) x = Memory.read m x := by
  unfold Memory.writeAll
  induction cells generalizing m with
  | nil => rfl
  | cons c cells ih =>
    rw [List.foldl_cons, ih (wf_write h _ _) fun d hd => hx d (by simp [hd]), read_write h,
      if_neg (Ne.symm (hx c (by simp)))]

/-- Where the cells name an address with one byte only, the read gives that byte. -/
theorem read_writeAll_of_mem {m : Memory} (h : Memory.wf m) {cells : List Host.Cell} {x : Nat} {b : Byte} (hx : (x, b) ∈ cells)
    (one : ∀ c ∈ cells, c.1 = x → c.2 = b) : Memory.read (Memory.writeAll m cells) x = b := by
  unfold Memory.writeAll
  induction cells generalizing m with
  | nil => simp at hx
  | cons c cells ih =>
    rw [List.foldl_cons]
    by_cases hin : (x, b) ∈ cells
    · exact ih (wf_write h _ _) hin fun d hd => one d (by simp [hd])
    · have hc : c = (x, b) := by
        rcases List.mem_cons.1 hx with e | e
        · exact e.symm
        · exact absurd e hin
      have hn : ∀ d ∈ cells, d.1 ≠ x := by
        intro d hd e
        have e2 := one d (by simp [hd]) e
        exact hin (by rw [← e, ← e2]; exact hd)
      have := read_writeAll_of_notMem (wf_write h c.1 c.2) hn
      unfold Memory.writeAll at this
      rw [this, read_write h, hc]
      simp

end Sys2Proof.Machine
end

