-- ==== Sys2Proof/Laws/Operands.lean ====
section
/-! SUPPORT. The ranges of the operand and arithmetic functions, and what the block and patch builders hold at each index. -/

namespace Sys2Proof.Machine

theorem clamp_bounds {v lo hi : Int} (h : lo ≤ hi) : lo ≤ clamp v lo hi ∧ clamp v lo hi ≤ hi := by
  unfold clamp
  omega

/-- Both dequantizers answer in COEF's range (R116). -/
theorem clampCoef_bounds (v : Int) : -16384 ≤ clampCoef v ∧ clampCoef v ≤ 16383 := clamp_bounds (by omega)

theorem dqDc_bounds (amp t0 : Int) : -16384 ≤ dqDc amp t0 ∧ dqDc amp t0 ≤ 16383 := clampCoef_bounds _

theorem dqAc_bounds (amp e q : Int) : -16384 ≤ dqAc amp e q ∧ dqAc amp e q ≤ 16383 := clampCoef_bounds _

theorem tableEntry_bounds (T : Tables) (blk : Fin 6) (p : Fin 64) : 0 ≤ tableEntry T blk p ∧ tableEntry T blk p ≤ 255 := by
  have := (tableOf T blk)[p].isLt
  unfold tableEntry
  omega

/-- The high field of a word as a number (R71). -/
theorem hi6_toNat (w : Word) : (hi6 w).toNat = w.toNat / 1024 := by
  have := w.isLt
  simp only [hi6, BitVec.extractLsb'_toNat, Nat.shiftRight_eq_div_pow]
  omega

/-- The low field of a word as a number (R71). -/
theorem lo10_toNat (w : Word) : (lo10 w).toNat = w.toNat % 1024 := by
  simp only [lo10, BitVec.extractLsb'_toNat, Nat.shiftRight_zero]

/-- The 9-bit value of R164 is in range and congruent to what it was made from. -/
theorem sext9_spec (v : Int) : -256 ≤ sext9 v ∧ sext9 v ≤ 255 ∧ (512 : Int) ∣ v - sext9 v := by
  unfold sext9
  split <;> omega

@[simp] theorem zero_getElem (i : Nat) (h : i < 64) : Block.zero[i] = 0 := by simp [Block.zero]

theorem zero_inRange : Block.zero.InRange := fun p => by simp

/-- One element of a block after a store. -/
theorem set_getElem (B : Block) (i p : Fin 64) (v : Int) : (B.set i v)[p] = if p = i then v else B[p] := by
  simp only [Fin.getElem_fin, Vector.getElem_set, Fin.ext_iff, eq_comm]

theorem set_inRange {B : Block} (h : B.InRange) (i : Fin 64) {v : Int} (hv : -16384 ≤ v ∧ v ≤ 16383) : Block.InRange (B.set i v) := by
  intro p
  rw [set_getElem]
  split
  · exact hv
  · exact h p

/-- One byte of a patch after CONVERT. -/
theorem convert_getElem (mode : ColorToInt) (qd : Fin 4) (Y Cb Cr : Block) (patch : Patch) (j : Fin 768) :
    (convert mode qd Y Cb Cr patch)[j] =
      if inQuad qd (patchRow j) (patchCol j) then
        pixel mode Y[lumaPos (patchRow j) (patchCol j)] Cb[chromaPos (patchRow j) (patchCol j)]
          Cr[chromaPos (patchRow j) (patchCol j)] (patchChan j)
      else patch[j] := by
  simp [convert]

@[simp] theorem patchRow_patchPos (py px : Fin 16) (c : Fin 3) : patchRow (patchPos py px c) = py := by
  ext; simp only [patchRow, patchPos]; omega

@[simp] theorem patchCol_patchPos (py px : Fin 16) (c : Fin 3) : patchCol (patchPos py px c) = px := by
  ext; simp only [patchCol, patchPos]; omega

@[simp] theorem patchChan_patchPos (py px : Fin 16) (c : Fin 3) : patchChan (patchPos py px c) = c := by
  ext; simp only [patchChan, patchPos]; omega

/-- One channel of one macroblock pixel after CONVERT (R160). -/
theorem convert_patchPos (mode : ColorToInt) (qd : Fin 4) (Y Cb Cr : Block) (patch : Patch) (py px : Fin 16) (c : Fin 3) :
    (convert mode qd Y Cb Cr patch)[patchPos py px c] =
      if inQuad qd py px then
        pixel mode Y[lumaPos py px] Cb[chromaPos py px] Cr[chromaPos py px] c
      else patch[patchPos py px c] := by
  rw [convert_getElem]
  simp only [patchRow_patchPos, patchCol_patchPos, patchChan_patchPos]

theorem patchPos_surj (j : Fin 768) : patchPos (patchRow j) (patchCol j) (patchChan j) = j := by
  ext; simp only [patchRow, patchCol, patchChan, patchPos]; omega

/-- The four quadrants partition the patch: each pixel is in the quadrant of its coordinates and in no other (R166). -/
theorem inQuad_iff (qd : Fin 4) (py px : Fin 16) : inQuad qd py px = true ↔ qd.val = py.val / 8 * 2 + px.val / 8 := by
  simp only [inQuad, Bool.and_eq_true, beq_iff_eq]
  omega

end Sys2Proof.Machine
end

