-- ==== Sys2Proof/Laws/Words.lean ====
section
/-! SUPPORT. What the words and the stream reader can do: one lemma for each shared operation. -/

namespace Sys2Proof.Machine

/-- NextWord answers the word at CURSOR, or nothing where CURSOR has reached N. -/
theorem nextWord_cases (s : State) :
    (∃ w, s.cursor < s.n ∧ s.words[s.cursor]? = some w ∧ nextWord s = some (w, s.consume)) ∨
    (s.n ≤ s.cursor ∧ nextWord s = none) := by
  unfold nextWord State.n
  by_cases h : s.cursor < s.words.length
  · exact .inl ⟨s.words[s.cursor], h, by simp [h], by simp [h]⟩
  · exact .inr ⟨by omega, by simp [show s.words.length ≤ s.cursor by omega]⟩

/-- An AC word stores, or ends the block. -/
theorem acWord_cases (P : Params) (run : BitVec 6) (amp : BitVec 10) (s : State) :
    (∃ (k : Nat) (h : k < 64), k = s.k.toNat + run.toNat ∧
      acWord P run amp s = .next (s.storeAc k P.zz[k] (dqAc amp.toInt (tableEntry P.toTables s.blk P.zz[k]) s.q.toNat))) ∨
    (64 ≤ s.k.toNat + run.toNat ∧ acWord P run amp s = .next (s.overrun (s.k.toNat + run.toNat))) := by
  by_cases h : s.k.toNat + run.toNat < 64
  · exact .inl ⟨_, h, rfl, by simp [acWord, zext6, sext10, h]⟩
  · exact .inr ⟨by omega, by simp [acWord, zext6, h]⟩

/-- Every word gives a next state, one of five. -/
theorem execWith_cases (P : Params) (i : Instr) (s : State) : ∃ t, execWith P i s = .next t ∧
    ((i = .stuff ∧ t = s) ∨
     (∃ q amp, i = .dc q amp ∧ t = s.loadDc q (dqDc amp.toInt (tableEntry P.toTables s.blk 0))) ∨
     (i = .eob ∧ t = s.setSub .blockEnd) ∨
     (∃ run amp, ∃ (k : Nat) (h : k < 64), i = .ac run amp ∧ k = s.k.toNat + run.toNat ∧
        t = s.storeAc k P.zz[k] (dqAc amp.toInt (tableEntry P.toTables s.blk P.zz[k]) s.q.toNat)) ∨
     (∃ run amp, i = .ac run amp ∧ 64 ≤ s.k.toNat + run.toNat ∧ t = s.overrun (s.k.toNat + run.toNat))) := by
  cases i with
  | stuff => exact ⟨s, rfl, .inl ⟨rfl, rfl⟩⟩
  | dc q amp => exact ⟨_, rfl, .inr (.inl ⟨q, amp, rfl, rfl⟩)⟩
  | eob => exact ⟨_, rfl, .inr (.inr (.inl ⟨rfl, rfl⟩))⟩
  | ac run amp =>
    rcases acWord_cases P run amp s with ⟨k, h, hk, e⟩ | ⟨h, e⟩
    · exact ⟨_, e, .inr (.inr (.inr (.inl ⟨run, amp, k, h, rfl, hk, rfl⟩)))⟩
    · exact ⟨_, e, .inr (.inr (.inr (.inr ⟨run, amp, rfl, h, rfl⟩)))⟩

/-- exec is the meaning of an instruction in the machine's own instance. -/
theorem exec_eq_execWith (i : Instr) (s : State) : exec i s = execWith params i s := by cases i <;> rfl

theorem step_eq_stepWith (s : State) : step s = stepWith params s := by
  have h : exec = execWith params := funext fun i => funext fun s => exec_eq_execWith i s
  rw [step, stepWith, h]

/-- Where the engine reads words, every word has a reading, whose context is the sub-state. -/
theorem decode_reads {sub : Sub} (h : sub = .expectDc ∨ sub = .expectAc) (w : Word) :
    ∃ i, decode sub w = .ok i ∧ i.context = sub := by
  rcases h with rfl | rfl <;> simp only [decode] <;> split <;> exact ⟨_, rfl, rfl⟩

end Sys2Proof.Machine
end

