-- ==== Sys2Proof/Laws/Placement.lean ====
section
/-! SUPPORT. Placement: which cells a patch writes, and that placing keeps the canonical form and stays inside the image. -/

namespace Sys2Proof.Machine

/-- The cells of patch i are exactly its pixels' channels that fall inside the image (R189). -/
theorem mem_patchCells {w h i : Nat} {patch : Patch} {c : Host.Cell} :
    c ∈ patchCells w h i patch ↔ ∃ (py px : Fin 16) (ch : Fin 3), patchX h i + px.val < w ∧ patchY h i + py.val < h ∧
      c = (imageAddr w (patchX h i + px.val) (patchY h i + py.val) ch.val, patch[patchPos py px ch]) := by
  simp only [patchCells, List.mem_flatMap, List.mem_finRange, true_and]
  constructor
  · rintro ⟨py, px, hc⟩
    split at hc
    · obtain ⟨ch, -, rfl⟩ := List.mem_map.1 hc
      exact ⟨py, px, ch, ‹_ ∧ _›.1, ‹_ ∧ _›.2, rfl⟩
    · simp at hc
  · rintro ⟨py, px, ch, h1, h2, rfl⟩
    exact ⟨py, px, by rw [if_pos ⟨h1, h2⟩]; exact List.mem_map.2 ⟨ch, List.mem_finRange ch, rfl⟩⟩

/-- A pixel inside the image has its address inside the image (R54). -/
theorem imageAddr_lt {w h ix iy : Nat} {ch : Fin 3} (hx : ix < w) (hy : iy < h) : imageAddr w ix iy ch.val < w * h * 3 := by
  have h1 : (iy + 1) * w ≤ h * w := Nat.mul_le_mul_right w hy
  have h2 : (iy + 1) * w = iy * w + w := by ring
  have h3 : h * w = w * h := Nat.mul_comm h w
  have := ch.isLt
  unfold imageAddr
  omega

/-- Distinct pixel channels have distinct addresses (R54). -/
theorem imageAddr_inj {w ix iy c ix' iy' c' : Nat} (hx : ix < w) (hx' : ix' < w) (hc : c < 3) (hc' : c' < 3)
    (e : imageAddr w ix iy c = imageAddr w ix' iy' c') : ix = ix' ∧ iy = iy' ∧ c = c' := by
  unfold imageAddr at e
  have e1 : iy * w + ix = iy' * w + ix' := by omega
  have hw : 0 < w := by omega
  have d1 := congrArg (· / w) e1
  have m1 := congrArg (· % w) e1
  simp only [Nat.mul_comm _ w, Nat.mul_add_mod, Nat.mul_add_div hw, Nat.div_eq_of_lt hx, Nat.div_eq_of_lt hx', Nat.add_zero,
    Nat.mod_eq_of_lt hx, Nat.mod_eq_of_lt hx'] at d1 m1
  exact ⟨m1, d1, by omega⟩

theorem wf_placePatch {m : Memory} (hm : Memory.wf m) (w h : Nat) (plist : List Patch) (i : Nat) :
    Memory.wf (placePatch w h plist m i) := by
  unfold placePatch
  split
  · exact wf_writeAll hm _
  · exact hm

theorem wf_foldl_placePatch {m : Memory} (hm : Memory.wf m) (w h : Nat) (plist : List Patch) (order : List Nat) :
    Memory.wf (order.foldl (placePatch w h plist) m) := by
  induction order generalizing m with
  | nil => exact hm
  | cons i order ih => exact ih (wf_placePatch hm w h plist i)

/-- DONE entry keeps the image's canonical form. -/
theorem wf_placeAll {m : Memory} (hm : Memory.wf m) (w h np : Nat) (plist : List Patch) : Memory.wf (placeAll w h np plist m) :=
  wf_foldl_placePatch hm w h plist _

theorem mem_placePatch {m : Memory} {w h i : Nat} {plist : List Patch} {c : Host.Cell} (hc : c ∈ placePatch w h plist m i) :
    c.1 < w * h * 3 ∨ c ∈ m := by
  unfold placePatch at hc
  split at hc
  · refine (mem_writeAll hc).imp_left fun h1 => ?_
    obtain ⟨py, px, ch, hx, hy, rfl⟩ := mem_patchCells.1 h1
    exact imageAddr_lt hx hy
  · exact .inr hc

/-- DONE entry lists no address outside the image. -/
theorem mem_placeAll {m : Memory} {w h np : Nat} {plist : List Patch} {c : Host.Cell} (hc : c ∈ placeAll w h np plist m) :
    c.1 < w * h * 3 ∨ c ∈ m := by
  unfold placeAll at hc
  generalize List.range np = order at hc
  induction order generalizing m with
  | nil => exact .inr hc
  | cons i order ih =>
    rcases ih hc with h1 | h1
    · exact .inl h1
    · exact mem_placePatch h1

end Sys2Proof.Machine
end

