-- ==== Sys2Proof/Laws/Step.lean ====
section
/-! SUPPORT. What a step can do: one inversion lemma for each step function, from which statements about steps are derived. -/

namespace Sys2Proof.Machine

/-- A word read: EndOfStream at the bound, else the word's meaning after CURSOR advanced. -/
theorem readWord_cases (ex : Instr → State → Result) {s : State} (h : s.sub = .expectDc ∨ s.sub = .expectAc) :
    (s.n ≤ s.cursor ∧ readWord ex s = .next (takeException .endOfStream s)) ∨
    (∃ w i, s.cursor < s.n ∧ s.words[s.cursor]? = some w ∧ decode s.sub w = .ok i ∧ readWord ex s = ex i s.consume) := by
  rcases nextWord_cases s with ⟨w, h1, h2, e⟩ | ⟨h1, e⟩
  · obtain ⟨i, hi, -⟩ := decode_reads h w
    exact .inr ⟨w, i, h1, h2, hi, by simp only [readWord, e, hi]⟩
  · exact .inl ⟨h1, by simp only [readWord, e]⟩

/-- The engine's dispatch (R187), as cases. -/
theorem engineStep_cases (P : Params) (ex : Instr → State → Result) (s : State) :
    (s.phase ≠ .decoding ∧ engineStep P ex s = .next s) ∨
    (s.phase = .decoding ∧ s.sub = .mbStart ∧ s.cursor < s.n ∧ engineStep P ex s = .next s.beginMacroblock) ∨
    (s.phase = .decoding ∧ s.sub = .mbStart ∧ s.n ≤ s.cursor ∧
      engineStep P ex s = .next (State.enterDone { s with cause := .none })) ∨
    (s.phase = .decoding ∧ (s.sub = .expectDc ∨ s.sub = .expectAc) ∧ s.n ≤ s.cursor ∧
      engineStep P ex s = .next (takeException .endOfStream s)) ∨
    (∃ w i, s.phase = .decoding ∧ (s.sub = .expectDc ∨ s.sub = .expectAc) ∧ s.cursor < s.n ∧ s.words[s.cursor]? = some w ∧
      decode s.sub w = .ok i ∧ engineStep P ex s = ex i s.consume) ∨
    (s.phase = .decoding ∧ s.sub = .blockEnd ∧ engineStep P ex s = .next (blockEndStep P s)) := by
  have read : ∀ h : s.sub = .expectDc ∨ s.sub = .expectAc, s.phase = .decoding → engineStep P ex s = readWord ex s := by
    rintro (h | h) hp <;> simp only [engineStep, hp, h]
  by_cases hp : s.phase = .decoding
  swap
  · refine .inl ⟨hp, ?_⟩
    cases h : s.phase <;> simp_all [engineStep]
  cases hs : s.sub with
  | mbStart =>
    by_cases hc : s.cursor < s.n
    · exact .inr (.inl ⟨hp, rfl, hc, by simp [engineStep, hp, hs, mbStartStep, State.hasRemaining, hc]⟩)
    · exact .inr (.inr (.inl ⟨hp, rfl, by omega, by simp [engineStep, hp, hs, mbStartStep, State.hasRemaining, hc]⟩))
  | blockEnd => exact .inr (.inr (.inr (.inr (.inr ⟨hp, rfl, by simp only [engineStep, hp, hs]⟩))))
  | expectDc =>
    have h : s.sub = .expectDc ∨ s.sub = .expectAc := .inl hs
    rcases readWord_cases ex h with ⟨h1, e⟩ | ⟨w, i, h1, h2, h3, e⟩
    · exact .inr (.inr (.inr (.inl ⟨hp, .inl rfl, h1, (read h hp).trans e⟩)))
    · exact .inr (.inr (.inr (.inr (.inl ⟨w, i, hp, .inl rfl, h1, h2, hs ▸ h3, (read h hp).trans e⟩))))
  | expectAc =>
    have h : s.sub = .expectDc ∨ s.sub = .expectAc := .inr hs
    rcases readWord_cases ex h with ⟨h1, e⟩ | ⟨w, i, h1, h2, h3, e⟩
    · exact .inr (.inr (.inr (.inl ⟨hp, .inr rfl, h1, (read h hp).trans e⟩)))
    · exact .inr (.inr (.inr (.inr (.inl ⟨w, i, hp, .inr rfl, h1, h2, hs ▸ h3, (read h hp).trans e⟩))))

/-- BLOCK_END, as the three ways it routes a block (R183). -/
theorem routeBlock_cases (P : Params) (s : State) :
    (s.blk.val = 0 ∧ routeBlock P s = { s with crbuf := s.spat }) ∨
    (s.blk.val = 1 ∧ routeBlock P s = { s with cbbuf := s.spat }) ∨
    (∃ qd : Fin 4, s.blk.val = qd.val + 2 ∧
      routeBlock P s = { s with patch := convert P.colorToInt qd s.spat s.cbbuf s.crbuf s.patch }) := by
  by_cases h0 : s.blk.val = 0
  · exact .inl ⟨h0, by simp [routeBlock, h0]⟩
  by_cases h1 : s.blk.val = 1
  · exact .inr (.inl ⟨h1, by simp [routeBlock, h1]⟩)
  · exact .inr (.inr ⟨⟨s.blk.val - 2, by omega⟩, by simp; omega, by simp [routeBlock, h0, h1]⟩)

/-- The block advance (R184). -/
theorem advanceBlock_cases (s : State) :
    (∃ b : Fin 6, s.blk.val < 5 ∧ b.val = s.blk.val + 1 ∧ advanceBlock s = s.nextBlock b) ∨
    (s.blk.val = 5 ∧ advanceBlock s = s.completeMacroblock) := by
  by_cases h : s.blk.val < 5
  · exact .inl ⟨⟨s.blk.val + 1, by omega⟩, h, rfl, by simp [advanceBlock, h]⟩
  · exact .inr ⟨by omega, by simp [advanceBlock, h]⟩

/-- The block advance writes BLK, SUB, PLIST and NP alone, and the last two only from PATCH and the counts. -/
theorem advanceBlock_frame (s : State) :
    advanceBlock s = { s with blk := (advanceBlock s).blk, sub := (advanceBlock s).sub, plist := (advanceBlock s).plist,
                              np := (advanceBlock s).np } := by
  rcases advanceBlock_cases s with ⟨_, _, _, e⟩ | ⟨_, e⟩ <;> rw [e] <;> rfl

/-- START's outcomes (R40, R202, R207, R208). -/
theorem startMove_cases (P : Params) (words : List Word) (odd : Bool) (w h : Int) (s : State) :
    (s.phase = .decoding ∧ startMove P words odd w h s = .refused .startWhileDecoding) ∨
    (s.phase ≠ .decoding ∧ (P.maxWords < words.length ∨ (P.maxW : Int) < w ∨ (P.maxH : Int) < h) ∧
      startMove P words odd w h s = .refused .startTooLarge) ∨
    (s.phase ≠ .decoding ∧ words.length ≤ P.maxWords ∧ w ≤ P.maxW ∧ h ≤ P.maxH ∧ (w ≤ 0 ∨ h ≤ 0 ∨ odd = true) ∧
      startMove P words odd w h s = .next (takeException .invalidInputSize s)) ∨
    (s.phase ≠ .decoding ∧ words.length ≤ P.maxWords ∧ w ≤ P.maxW ∧ h ≤ P.maxH ∧ 0 < w ∧ 0 < h ∧ odd = false ∧
      startMove P words odd w h s = .next (s.initDecode words w.toNat h.toNat)) := by
  by_cases h1 : s.phase = .decoding
  · exact .inl ⟨h1, by simp [startMove, h1]⟩
  by_cases h2 : P.maxWords < words.length ∨ (P.maxW : Int) < w ∨ (P.maxH : Int) < h
  · exact .inr (.inl ⟨h1, h2, by simp [startMove, h1, h2]⟩)
  by_cases h3 : w ≤ 0 ∨ h ≤ 0 ∨ odd = true
  · exact .inr (.inr (.inl ⟨h1, by omega, by omega, by omega, h3, by simp only [startMove, if_neg h1, if_neg h2, if_pos h3]⟩))
  · have h3' := h3
    simp only [not_or, Bool.not_eq_true] at h3'
    exact .inr (.inr (.inr ⟨h1, by omega, by omega, by omega, by omega, by omega, h3'.2.2,
      by simp only [startMove, if_neg h1, if_neg h2, if_neg h3]⟩))

/-- READ_IMAGE's outcomes (R42). -/
theorem readImageMove_cases (i : Nat) (s : State) :
    (s.phase = .done ∧ i < s.w * s.h * 3 ∧ readImageMove i s = .next (s.answer (.byte (Memory.read s.image i)))) ∨
    (s.phase = .done ∧ s.w * s.h * 3 ≤ i ∧ readImageMove i s = .refused .readImageOutOfRange) ∨
    (s.phase ≠ .done ∧ readImageMove i s = .refused .readImageOutsideDone) := by
  by_cases h1 : s.phase = .done
  · by_cases h2 : i < s.w * s.h * 3
    · exact .inl ⟨h1, h2, by simp [readImageMove, h1, h2]⟩
    · exact .inr (.inl ⟨h1, by omega, by simp [readImageMove, h1, h2]⟩)
  · exact .inr (.inr ⟨h1, by simp [readImageMove, h1]⟩)

/-- With no host move pending, a step is the engine's. -/
theorem step_engine {s : State} (hm : s.moves = []) : step s = engineStep params exec s := by
  simp only [step, stepBy, hm]

/-- With no host move pending, a step of any instance at the end of a block is BLOCK_END. -/
theorem stepWith_blockEnd (P : Params) {s : State} (hp : s.phase = .decoding) (hs : s.sub = .blockEnd) (hm : s.moves = []) :
    stepWith P s = .next (advanceBlock (routeBlock P { s with spat := P.idct s.np s.coef })) := by
  simp only [stepWith, stepBy, hm, engineStep, hp, hs, blockEndStep]

/-- The same for the machine's own instance. -/
theorem step_blockEnd {s : State} (hp : s.phase = .decoding) (hs : s.sub = .blockEnd) (hm : s.moves = []) :
    step s = .next (advanceBlock (routeBlock params { s with spat := params.idct s.np s.coef })) := by
  rw [step_eq_stepWith, stepWith_blockEnd params hp hs hm]

/-- A step is the engine's, with no host move or a 'wait' taken off, or a host operation. -/
theorem stepBy_cases (P : Params) (ex : Instr → State → Result) (s : State) :
    (s.moves = [] ∧ stepBy P ex s = engineStep P ex s) ∨
    (∃ rest, s.moves = .wait :: rest ∧ stepBy P ex s = engineStep P ex (s.setMoves rest)) ∨
    (∃ rest, s.moves = .reset :: rest ∧ stepBy P ex s = .next (s.setMoves rest).resetEvent) ∨
    (∃ words w h rest, s.moves = .start words w h :: rest ∧ stepBy P ex s = startMove P words false w h (s.setMoves rest)) ∨
    (∃ bytes w h rest, s.moves = .startBytes bytes w h :: rest ∧
      stepBy P ex s = startMove P (wordsOfBytes P.byteOrder bytes) (bytes.length % 2 == 1) w h (s.setMoves rest)) ∨
    (∃ rest, s.moves = .readStatus :: rest ∧ stepBy P ex s = readStatusMove (s.setMoves rest)) ∨
    (∃ i rest, s.moves = .readImage i :: rest ∧ stepBy P ex s = readImageMove i (s.setMoves rest)) := by
  rcases hm : s.moves with _ | ⟨m, rest⟩
  · exact .inl ⟨rfl, by simp only [stepBy, hm]⟩
  · have e : stepBy P ex s = hostMove P ex m (s.setMoves rest) := by simp only [stepBy, hm]
    cases m with
    | wait => exact .inr (.inl ⟨rest, rfl, e⟩)
    | reset => exact .inr (.inr (.inl ⟨rest, rfl, e⟩))
    | start words w h => exact .inr (.inr (.inr (.inl ⟨words, w, h, rest, rfl, e⟩)))
    | startBytes bytes w h => exact .inr (.inr (.inr (.inr (.inl ⟨bytes, w, h, rest, rfl, e⟩))))
    | readStatus => exact .inr (.inr (.inr (.inr (.inr (.inl ⟨rest, rfl, e⟩)))))
    | readImage i => exact .inr (.inr (.inr (.inr (.inr (.inr ⟨i, rest, rfl, e⟩)))))

end Sys2Proof.Machine
end

