-- ==== Sys2Proof/Laws/PerInstr.lean ====
section
/-! SUPPORT. Statements for all instructions, one lemma per constructor. Sentinel: among well-formed instructions, exactly STUFF and EOB
have the word 0xFE00 (spec 30_encoding.md R74, R75). -/

namespace Sys2Proof.Laws.Sentinel

/-- A well-formed instruction's word is 0xFE00 exactly where it is STUFF or EOB. -/
def Statement (i : Instr) : Prop := i.WellFormed → (encode i = 0xFE00#16 ↔ i = .stuff ∨ i = .eob)

/-- Two field pairs that pack to the same word are the same. -/
theorem packWord_inj {hi hi' : BitVec 6} {lo lo' : BitVec 10} (h : packWord hi lo = packWord hi' lo') : hi = hi' ∧ lo = lo' := by
  have e := congrArg BitVec.toNat h
  simp only [packWord, BitVec.toNat_append, Nat.shiftLeft_eq] at e
  have h1 := lo.isLt
  have h2 := lo'.isLt
  rw [Nat.mul_comm, Nat.mul_comm hi'.toNat, ← Nat.two_pow_add_eq_or_of_lt h1, ← Nat.two_pow_add_eq_or_of_lt h2] at e
  constructor <;> apply BitVec.eq_of_toNat_eq <;> omega

/-- Only the field pair (63, -512) packs to the sentinel. -/
theorem packWord_eq_sentinel (hi : BitVec 6) (lo : BitVec 10) : packWord hi lo = 0xFE00#16 ↔ sentinelFields hi lo = true := by
  have e : (0xFE00#16 : Word) = packWord 63#6 0x200#10 := by decide
  rw [e, sentinelFields, Bool.and_eq_true, beq_iff_eq, beq_iff_eq]
  exact ⟨packWord_inj, fun ⟨h1, h2⟩ => by rw [h1, h2]⟩

theorem stuff : Statement .stuff := fun _ => by simp [encode, sentinel]

theorem dc (q : BitVec 6) (amp : BitVec 10) : Statement (.dc q amp) := fun h => by
  have hn : sentinelFields q amp = false := by simpa only [Instr.WellFormed, Instr.wellFormed, Bool.not_eq_true'] using h
  rw [encode, packWord_eq_sentinel, hn]
  simp

theorem eob : Statement .eob := fun _ => by simp [encode, sentinel]

theorem ac (run : BitVec 6) (amp : BitVec 10) : Statement (.ac run amp) := fun h => by
  have hn : sentinelFields run amp = false := by simpa only [Instr.WellFormed, Instr.wellFormed, Bool.not_eq_true'] using h
  rw [encode, packWord_eq_sentinel, hn]
  simp

end Sys2Proof.Laws.Sentinel
end

