-- ==== Sys2Proof/Tests/Slice0.lean ====
section
/-! SUPPORT. The model's own tests. Expected values are the spec's: the worked examples of its rules and the vectors of
95_test_vectors.md, computed with its instance TCFG. Then, for each statement with hypotheses, a witness that meets them. -/

namespace Sys2Proof.Tests

open Sys2Proof.Machine

/-! ### Helpers -/

/-- The quantization table of TCFG (95_test_vectors.md section 2). -/
def tcfgTable : Vector Byte 64 :=
  #v[ 2, 16, 19, 22, 26, 27, 29, 34, 16, 16, 22, 24, 27, 29, 34, 37, 19, 22, 26, 27, 29, 34, 34, 38, 22, 22, 26, 27, 29, 34, 37, 40,
     22, 26, 27, 29, 32, 35, 40, 48, 26, 27, 29, 32, 35, 40, 48, 58, 26, 27, 29, 34, 38, 46, 56, 69, 27, 29, 35, 38, 46, 56, 69, 83]

/-- TCFG: the spec's defaults with the test table and limits larger than any vector here. -/
def tcfg : Params := specDefaults tcfgTable tcfgTable 1000 1000 1000

/-- A one-pixel decode in a sub-state, with a stream and a cursor, no host move pending. -/
def decodingState (sub : Sub) (words : List Word) (cursor : Nat) : State :=
  { State.reset with w := 1, h := 1, phase := .decoding, sub := sub, words := words, cursor := cursor }

/-- Why a step is refused, where it is. -/
def refusalOf (r : Result) : Option Refusal :=
  match r with
  | .refused e => some e
  | _ => none

/-- A field of the next state under TCFG, or a default where there is none. -/
def after {α : Type} (r : Result) (f : State → α) (d : α) : α :=
  match r with
  | .next t => f t
  | _ => d

/-! ### Well-formedness and decoding -/

/-- R75, R80: the pair (63, -512) has no encoding, as DC and as AC. -/
theorem test_ill_formed_refused :
    (Instr.dc 63 0x200).wellFormed = false ∧ (Instr.ac 63 0x200).wellFormed = false ∧
    (Instr.dc 63 0x201).wellFormed = true ∧ (Instr.ac 62 0x200).wellFormed = true := by decide

/-- T1.1, T1.2, T1.6, T1.8, T1.10: DC words and STUFF, the fields written out bit by bit. -/
theorem test_decode_dc_context :
    decode .expectDc 0b000001_0000000000#16 = .ok (.dc 1 0) ∧ decode .expectDc 0b000001_1111111111#16 = .ok (.dc 1 (-1)) ∧
    decode .expectDc 0b000000_0000000000#16 = .ok (.dc 0 0) ∧ decode .expectDc 0b111111_1000000000#16 = .ok .stuff ∧
    decode .expectDc 0b111111_1000000001#16 = .ok (.dc 63 (-511)) := by decide

/-- T1.3 to T1.5, T1.7, T1.9, T1.11, T1.12: AC words and EOB. -/
theorem test_decode_ac_context :
    decode .expectAc 0b000000_0111111111#16 = .ok (.ac 0 511) ∧ decode .expectAc 0b000000_1000000000#16 = .ok (.ac 0 (-512)) ∧
    decode .expectAc 0b111111_0000000101#16 = .ok (.ac 63 5) ∧ decode .expectAc 0b111111_1000000000#16 = .ok .eob ∧
    decode .expectAc 0b111111_0111111111#16 = .ok (.ac 63 511) ∧ decode .expectAc 0b111111_1111111111#16 = .ok (.ac 63 (-1)) := by
  decide

/-- R80, R82: the encoder's words. -/
theorem test_encode :
    encode .stuff = 0xFE00 ∧ encode (.dc 1 (-10)) = 0x07F6 ∧ encode .eob = 0xFE00 ∧ encode (.ac 62 8) = 0xF808 := by decide

/-- R76, R56: no word is read at a macroblock boundary or at a block's end, and half a word is none. -/
theorem test_decode_rejects_by_name :
    decode .mbStart 0x0400 = .error (.noWordReadIn .mbStart) ∧ decode .blockEnd 0xFE00 = .error (.noWordReadIn .blockEnd) ∧
    decodeBytes .little .expectDc [0x00] = .error (.halfWord 1) := by decide

/-- T7.4, T7.5: the two byte orders. -/
theorem test_byte_orders :
    wordsOfBytes .little [0x00, 0x04, 0x00, 0xFE] = [0x0400, 0xFE00] ∧
    wordsOfBytes .big [0x04, 0x00, 0xFE, 0x00] = [0x0400, 0xFE00] := by decide

/-- The host's numbering of a word: the reading of a stream's first word (log 9). -/
theorem test_table_word :
    decodeTableWord 16 0xFE00 = some .stuff ∧ decodeTableWord 16 0x0405 = some (.dc 1 5) ∧ decodeTableWord 16 0x10000 = none := by
  decide

/-- A word placed for the host is what the very next step runs (log 8). -/
theorem test_with_fetch_word (w : Nat) :
    step (State.reset.withFetchWord 16 0x0405) = exec (.dc 1 5) (State.consume (State.reset.withFetchWord 16 0x0405)) ∧
    step (State.reset.withFetchWord 16 0xFE00) = exec .stuff (State.consume (State.reset.withFetchWord 16 0xFE00)) ∧
    (State.reset.withFetchWord 16 w).moves = [] := ⟨rfl, rfl, rfl⟩

/-! ### The words (T3), one step each under TCFG -/

/-- T3.3: a STUFF word is skipped. -/
theorem test_stuff :
    after (stepWith tcfg (decodingState .expectDc [0xFE00] 0)) (fun t => (t.cursor, t.sub)) (9, .mbStart) = (1, .expectDc) := by decide

/-- T3.2: DC 1, 10 gives Q = 1, COEF[0] = 20, K = 1. -/
theorem test_dc :
    after (stepWith tcfg (decodingState .expectDc [0x040A] 0)) (fun t => (t.q, t.coef[0], t.k, t.sub)) (0, 0, 0, .mbStart) =
      (1, 20, 1, .expectAc) := by decide +kernel

/-- R110: a DC word clears what an earlier block left. -/
theorem test_dc_clears :
    after (stepWith tcfg { decodingState .expectDc [0x0400] 0 with coef := Vector.replicate 64 7 }) (fun t => t.coef) (Vector.replicate 64 7)
      = Block.zero := by decide +kernel

/-- R112: EOB ends the block. -/
theorem test_eob :
    after (stepWith tcfg (decodingState .expectAc [0xFE00] 0)) (fun t => (t.cursor, t.sub)) (9, .mbStart) = (1, .blockEnd) := by decide

/-- T3.6: AC 0, 10 with Q = 2 at K = 1 gives COEF[1] = 40, K = 2. -/
theorem test_ac :
    after (stepWith tcfg { decodingState .expectAc [0x000A] 0 with k := 1, q := 2 }) (fun t => (t.coef[1], t.k, t.sub)) (0, 0, .mbStart) =
      (40, 2, .expectAc) := by decide +kernel

/-- T3.4, T3.5: K reaching 64 stores nothing; a store at K = 63 ends the block with COEF[63] = 83. -/
theorem test_ac_end :
    after (stepWith tcfg { decodingState .expectAc [0xFC05] 0 with k := 1, q := 1 }) (fun t => (t.coef, t.k, t.sub)) (Block.zero, 0, .mbStart) =
      (Block.zero, 64, .blockEnd) ∧
    after (stepWith tcfg { decodingState .expectAc [0xF808] 0 with k := 1, q := 1 }) (fun t => (t.coef[63], t.k, t.sub)) (0, 0, .mbStart) =
      (83, 64, .blockEnd) := by decide +kernel

/-- T2.4, T2.5, T2.17 to T2.20. -/
theorem test_dequantizers :
    dqDc 511 32 = 16352 ∧ dqDc 511 33 = 16383 ∧ dqAc 10 16 2 = 40 ∧ dqAc (-3) 16 2 = -12 ∧ dqAc 8 83 1 = 83 ∧ dqAc 8 83 2 = 166 := by
  decide

/-! ### The transform (T4) -/

/-- T4.2: F[1] = 100, the first row. -/
theorem test_idct_row :
    (idctFixed .unitDc (Block.zero.set 1 100)).toList.take 8 = [139, 118, 79, 28, -28, -79, -118, -139] := by decide +kernel

/-- T4.9 and T4.12: their last rows. -/
theorem test_idct_blocks :
    (idctFixed .unitDc (Block.zero.set 63 83)).toList.drop 56 = [-6, 18, -27, 32, -32, 27, -18, 6] ∧
    (idctFixed .unitDc ((((Block.zero.set 0 10).set 1 40).set 8 (-12)).set 63 166)).toList.drop 56 =
      [69, 110, 4, 101, -48, 49, -56, -16] := by decide +kernel

/-- T4.10: a DC-only block, unclamped. -/
theorem test_idct_dc_only : idctFixed .unitDc (Block.zero.set 0 (-16384)) = Vector.replicate 64 (-16384) := by decide +kernel

/-! ### Colour (R168, T5) -/

/-- The three bytes of PIXEL. -/
def pixelBytes (mode : ColorToInt) (y cb cr : Int) : List Byte := [pixel mode y cb cr 0, pixel mode y cb cr 1, pixel mode y cb cr 2]

/-- The corner cases of R168's table under TRUNC. -/
theorem test_pixel_corners :
    ∀ x ∈ [((0, 0, 0), [128, 128, 128]), ((100, 0, 10), [242, 220, 228]), ((127, 0, 0), [255, 255, 255]), ((128, 0, 0), [255, 255, 255]),
        ((200, 0, 0), [255, 255, 255]), ((255, 0, 0), [255, 255, 255]), ((256, 0, 0), [0, 0, 0]), ((300, 0, 0), [0, 0, 0]),
        ((511, 0, 0), [127, 127, 127]), ((512, 0, 0), [128, 128, 128]), ((16383, 0, 0), [127, 127, 127]), ((-128, 0, 0), [0, 0, 0]),
        ((-129, 0, 0), [0, 0, 0]), ((-300, 0, 0), [255, 255, 255]), ((0, 0, -1), [127, 128, 128]), ((0, 0, 1), [129, 128, 128]),
        ((0, 1, 1), [129, 127, 129]), ((0, -1, 0), [128, 128, 127]), ((0, 100, 0), [128, 94, 255]), ((0, 0, 100), [255, 57, 128]),
        ((0, -16384, -16384), [198, 54, 255])],
      pixelBytes .trunc x.1.1 x.1.2.1 x.1.2.2 = x.2 := by decide +kernel

/-- T5.3: FLOOR differs from TRUNC at (0, 0, -1). -/
theorem test_pixel_floor : pixel .floor 0 0 (-1) 0 = 126 ∧ pixel .trunc 0 0 (-1) 0 = 127 := by decide

/-- R160's worked example, in the BLOCK_END step of Y1: its own quadrant is written, its left neighbour is not. -/
theorem test_luma_block_end :
    after (stepWith tcfg { decodingState .blockEnd [] 0 with blk := 3, coef := Block.zero.set 0 100, crbuf := Vector.replicate 64 10 })
      (fun t => (t.patch[patchPos 0 8 0], t.patch[patchPos 7 15 1], t.patch[patchPos 0 8 2], t.patch[patchPos 0 7 0], t.blk, t.sub))
      (0, 0, 0, 1, 0, .mbStart) = (242, 220, 228, 0, 4, .expectDc) := by decide +kernel

/-- R183's worked example: a Cr block of DC 20. -/
theorem test_chroma_block_end :
    after (stepWith tcfg { decodingState .blockEnd [] 0 with coef := Block.zero.set 0 20 }) (fun t => (t.crbuf, t.blk, t.sub))
      (Block.zero, 0, .mbStart) = (Vector.replicate 64 20, 1, .expectDc) := by decide +kernel

/-- R185: the sixth block appends the patch and counts it. -/
theorem test_macroblock_complete :
    after (stepWith tcfg { decodingState .blockEnd [] 0 with blk := 5 }) (fun t => (t.plist.length, t.np, t.sub)) (9, 9, .blockEnd) =
      (1, 1, .mbStart) := by decide +kernel

/-! ### Placement (T6) -/

/-- T6.2, T6.4, T6.6: where patches go. -/
theorem test_placement :
    (List.range 3).map (fun i => (patchX 17 i, patchY 17 i)) = [(0, 0), (0, 16), (16, 0)] ∧
    (List.range 4).map (fun i => (patchX 24 i, patchY 24 i)) = [(0, 0), (0, 16), (16, 0), (16, 16)] ∧
    (List.range 4).map (fun i => (patchX 48 i, patchY 48 i)) = [(0, 0), (0, 16), (0, 32), (16, 0)] := by decide

/-- T6.2, T6.7, T6.8: clipping to one row, to 8 columns, and away. -/
theorem test_clipping :
    (patchCells 16 17 1 Patch.zero).length = 16 * 3 ∧ (patchCells 24 16 1 Patch.zero).length = 8 * 16 * 3 ∧
    patchCells 16 16 1 Patch.zero = [] := by decide +kernel

/-- DONE entry at a boundary (R181, R190) and by EndOfStream (R204), on a 2x1 image under one patch. -/
theorem test_done_entry :
    after (stepWith tcfg { decodingState .mbStart [] 0 with w := 2, plist := [Vector.replicate 768 5], np := 1 })
      (fun t => (t.phase, t.cause, t.image)) (.idle, .none, []) =
      (.done, .none, [(0, 5), (1, 5), (2, 5), (3, 5), (4, 5), (5, 5)]) ∧
    after (stepWith tcfg (decodingState .expectAc [0x0400] 1)) (fun t => (t.phase, statusWord t, t.cursor)) (.idle, 0, 9) =
      (.done, 0x00000006, 1) := by decide +kernel

/-! ### The host (T7) -/

/-- T7.2, T7.3 and R180: START with W = 0, and START with no words. -/
theorem test_start :
    after (stepWith tcfg { State.reset with moves := [.start [] 0 16] }) (fun t => (t.phase, t.cause)) (.idle, .none) =
      (.error, .invalidInputSize) ∧
    after (stepWith tcfg { State.reset with moves := [.start [] 16 16], cursor := 5, np := 3, image := [(0, 1)] })
      (fun t => (t.phase, t.cursor, t.np, t.image.length, t.sub)) (.idle, 9, 9, 9, .blockEnd) =
      (.decoding, 0, 0, 0, .mbStart) := by decide +kernel

/-- T7.1, P6: START_BYTES with an odd byte length; NP and CURSOR keep their values. -/
theorem test_start_bytes :
    after (stepWith tcfg { State.reset with phase := .done, cursor := 12, np := 1, moves := [.startBytes [0x00, 0x04, 0x00] 16 16] })
      (fun t => (statusWord t, t.cursor, t.np)) (0, 9, 9) = (0x0000000B, 12, 1) := by decide +kernel

/-- T7.8 and D15: START while DECODING, and beyond a limit with an invalid size. -/
theorem test_start_refused :
    refusalOf (stepWith tcfg { State.reset with phase := .decoding, moves := [.start [] 16 16] }) = some .startWhileDecoding ∧
    refusalOf (stepWith tcfg { State.reset with moves := [.start [] 1001 0] }) = some .startTooLarge := by
  decide +kernel

/-- READ_STATUS (R44) and READ_IMAGE (R42) in DONE. -/
theorem test_reads :
    after (stepWith tcfg { State.reset with phase := .done, cause := .endOfStream, cursor := 27, np := 2, moves := [.readStatus] })
      (fun t => t.reply) none = some (.status 0x00000006 2 27) ∧
    after (stepWith tcfg { State.reset with phase := .done, w := 2, h := 1, image := [(4, 9)], moves := [.readImage 4] })
      (fun t => t.reply) none = some (.byte 9) := by decide +kernel

/-- T7.9 and an index out of range. -/
theorem test_read_image_refused :
    refusalOf (stepWith tcfg { State.reset with moves := [.readImage 0] }) = some .readImageOutsideDone ∧
    refusalOf (stepWith tcfg { State.reset with phase := .done, w := 1, h := 1, moves := [.readImage 3] }) =
      some .readImageOutOfRange := by
  decide +kernel

/-- T7.6: RESET out of a decode. -/
theorem test_reset :
    after (stepWith tcfg { decodingState .expectAc [0x0400] 1 with np := 2, moves := [.reset, .readStatus] })
      (fun t => (statusWord t, t.np, t.cursor, t.moves)) (1, 9, 9, []) = (0, 0, 0, [.readStatus]) := by decide +kernel

/-- R105, R208: configuration refuses a ZZ that is not one to one, and an entry of 256. -/
theorem test_configure :
    (configure (List.replicate 64 0) (List.replicate 64 255) (List.range 64)).isOk = true ∧
    configure (List.replicate 64 0) (List.replicate 64 0) (List.replicate 64 0) = .error .zigzagNotAdmissible ∧
    configure (List.replicate 64 256) (List.replicate 64 0) (List.range 64) = .error .tableNotAdmissible := by decide +kernel

/-! ### Witnesses: for each statement with hypotheses, a state and operands that meet all of them -/

/-- A one-pixel decode at most one word long meets the machine's invariants before a DC word and at a macroblock boundary. -/
theorem decodingState_inv {sub : Sub} (hs : sub = .mbStart ∨ sub = .expectDc) {words : List Word} {cursor : Nat}
    (hw : words.length ≤ 1) (hc : cursor ≤ words.length) : (decodingState sub words cursor).Inv params where
  cursor_le := hc
  n_le := Nat.le_trans hw params_admissible.maxWords_pos
  w_le := params_admissible.maxW_pos
  h_le := params_admissible.maxH_pos
  sizes_pos := fun _ => ⟨Nat.one_pos, Nat.one_pos⟩
  np_length := rfl
  words_used := by
    have h0 : wordsInFlight (decodingState sub words cursor) = 0 := by rcases hs with rfl | rfl <;> rfl
    rw [h0]; exact Nat.zero_le _
  k_range := fun _ h => by rcases hs with rfl | rfl <;> cases h
  coef_range := zero_inRange
  done_cursor := fun h => by cases h
  cause_fits := rfl
  image_zero := fun _ => rfl
  image_wf := ⟨List.Pairwise.nil, fun _ h => by cases h⟩
  image_in := fun _ h => by cases h

/-- A START of one pixel with at most one word is answered by the decode's first state. -/
theorem step_start_one {s : State} {words : List Word} {rest : List HostMove} (hm : s.moves = .start words 1 1 :: rest)
    (hp : s.phase ≠ .decoding) (hw : words.length ≤ 1) : step s = .next ((s.setMoves rest).initDecode words 1 1) := by
  have h1 : ¬(params.maxWords < words.length ∨ (params.maxW : Int) < 1 ∨ (params.maxH : Int) < 1) := by
    have := params_admissible.maxWords_pos
    have := params_admissible.maxW_pos
    have := params_admissible.maxH_pos
    omega
  have hp' : ¬(s.setMoves rest).phase = .decoding := hp
  simp only [step, stepBy, hm, hostMove, startMove, if_neg hp', if_neg h1]
  rfl

theorem run_start_one {s : State} {words : List Word} {rest : List HostMove} (hm : s.moves = .start words 1 1 :: rest)
    (hp : s.phase ≠ .decoding) (hw : words.length ≤ 1) : ∃ t, Host.Core.run Sys2Proof.core (0 + 1) s = .next t := by
  refine ⟨(s.setMoves rest).initDecode words 1 1, ?_⟩
  have h : Sys2Proof.core.step s = _ := step_start_one hm hp hw
  simp only [Host.Core.run, h]

theorem test_witness_decode_of_encode :
    Instr.stuff.WellFormed ∧ (Instr.dc 63 0x201).WellFormed ∧ Instr.eob.WellFormed ∧ (Instr.ac 62 0x200).WellFormed := by decide

theorem test_witness_encode_of_decode : decode .expectAc 0xF808 = .ok (.ac 62 8) ∧ decode .expectDc 0xFE00 = .ok .stuff := by decide

theorem test_witness_byte_form_words :
    [0x01#8, 0x02#8, 0x03#8][2 * 0]? = some 0x01#8 ∧ [0x01#8, 0x02#8, 0x03#8][2 * 0 + 1]? = some 0x02#8 := by decide

theorem test_witness_configuration_checked :
    ∃ T, configure (List.replicate 64 0) (List.replicate 64 255) ((List.range 64).map Int.ofNat) = .ok T := by
  refine ⟨⟨Vector.replicate 64 0, Vector.replicate 64 255, Vector.ofFn id⟩, ?_⟩
  decide +kernel

theorem test_witness_dequantizer_bounds :
    (-512 ≤ (-512 : Int) ∧ (-512 : Int) ≤ 511 ∧ 0 ≤ (255 : Int) ∧ (255 : Int) ≤ 255 ∧ 0 ≤ (63 : Int) ∧ (63 : Int) ≤ 63) ∧
    (-512 ≤ (511 : Int) ∧ (511 : Int) ≤ 511 ∧ 0 ≤ (0 : Int) ∧ (0 : Int) ≤ 255 ∧ (0 : Int) ≤ 63) := by decide

theorem test_witness_coefficients_stay_in_range :
    (∃ t, exec (.dc 63 0x1FF) State.reset = .next t) ∧
    State.reset.coef.InRange ∧ ∃ t, exec .eob State.reset = .next t :=
  ⟨⟨_, rfl⟩, zero_inRange, ⟨_, rfl⟩⟩

theorem test_witness_step_runs_decoded_word :
    let s := decodingState .expectDc [0x0400] 0
    s.phase = .decoding ∧ s.words[s.cursor]? = some 0x0400 ∧ decode s.sub 0x0400 = .ok (.dc 1 0) ∧ s.moves = [] ∧
    { s with moves := [.wait, .readStatus] }.moves = .wait :: [.readStatus] := by decide

/-- EXPECT_DC with no word left, a STUFF word, and the DC word that differs from it in one bit. -/
theorem test_witness_expect_dc :
    (∀ words ∈ [[], [0xFE00#16], [0xFE01#16]], let s := decodingState .expectDc words 0
      s.phase = .decoding ∧ s.sub = .expectDc ∧ s.moves = []) ∧
    (decodingState .expectDc [] 0).n ≤ (decodingState .expectDc [] 0).cursor ∧
    (decodingState .expectDc [0xFE00] 0).words[0]? = some 0xFE00#16 ∧
    (decodingState .expectDc [0xFE01] 0).words[0]? = some 0xFE01#16 ∧ 0xFE01#16 ≠ 0xFE00#16 := by decide

/-- EXPECT_AC at both ends of K's range: no word left, an overrun by one, a store at 63, and one at 1. -/
theorem test_witness_expect_ac :
    (∀ k ∈ [1#7, 63#7], let s : State := { decodingState .expectAc [0xFC05] 0 with k := k }
      s.phase = .decoding ∧ s.sub = .expectAc ∧ s.moves = [] ∧ 1 ≤ s.k.toNat ∧ s.k.toNat ≤ 63 ∧
      s.words[s.cursor]? = some 0xFC05#16 ∧ 0xFC05#16 ≠ 0xFE00#16 ∧ 64 ≤ s.k.toNat + (0xFC05#16).toNat / 1024) ∧
    (∀ k ∈ [1#7, 63#7], let s : State := { decodingState .expectAc [] 0 with k := k }
      s.phase = .decoding ∧ s.sub = .expectAc ∧ s.moves = [] ∧ 1 ≤ s.k.toNat ∧ s.k.toNat ≤ 63 ∧ s.n ≤ s.cursor) ∧
    0xF808#16 ≠ 0xFE00#16 ∧ (1#7).toNat + (0xF808#16).toNat / 1024 = 63 ∧ 0x0005#16 ≠ 0xFE00#16 ∧
    (63#7).toNat + (0x0005#16).toNat / 1024 = 63 ∧ (1#7).toNat + (0x0005#16).toNat / 1024 = 1 := by decide

theorem test_witness_ac_word_stores :
    ({ State.reset with k := 1 } : State).k.toNat + (62#6).toNat = 63 ∧ 63 < 64 ∧
    ({ State.reset with k := 1 } : State).k.toNat + (0#6).toNat = 1 := by decide

theorem test_witness_ac_word_overruns :
    64 ≤ ({ State.reset with k := 1 } : State).k.toNat + (63#6).toNat ∧ ({ State.reset with k := 1 } : State).k.toNat ≤ 64 := by decide

theorem test_witness_word_frame :
    (∃ t, exec .stuff State.reset = .next t) ∧ (∃ t, exec (.dc 1 0) State.reset = .next t) ∧ (∃ t, exec .eob State.reset = .next t) ∧
    (∃ t, exec (.ac 63 5) { State.reset with k := 1 } = .next t) ∧ ∀ q amp, Instr.eob ≠ .dc q amp :=
  ⟨⟨_, rfl⟩, ⟨_, rfl⟩, ⟨_, rfl⟩, ⟨_, rfl⟩, fun _ _ h => by cases h⟩

/-- The three ways of R114, and a word that ends no block. -/
theorem test_witness_block_ends :
    ∀ w ∈ [0xFE00#16, 0xFC05#16, 0xF808#16, 0x0005#16],
      let s : State := { decodingState .expectAc [w] 0 with k := 1 }
      s.phase = .decoding ∧ s.moves = [] ∧ s.sub ≠ .blockEnd ∧ ∃ t, step s = .next t := by
  intro w h
  simp only [List.mem_cons, List.not_mem_nil, or_false] at h
  rcases h with rfl | rfl | rfl | rfl <;> exact ⟨rfl, rfl, by decide, _, rfl⟩

/-- An exhausted stream before a DC word, and one with a word left. -/
theorem test_witness_end_of_stream :
    (∀ words ∈ [[], [0x0400#16]], (decodingState .expectDc words 0).Inv params ∧ (decodingState .expectDc words 0).phase = .decoding ∧
      (decodingState .expectDc words 0).moves = [] ∧ ∃ t, step (decodingState .expectDc words 0) = .next t) ∧
    (decodingState .expectAc [0x0400] 1).n ≤ (decodingState .expectAc [0x0400] 1).cursor := by
  refine ⟨fun words h => ?_, by decide⟩
  simp only [List.mem_cons, List.not_mem_nil, or_false] at h
  rcases h with rfl | rfl <;> exact ⟨decodingState_inv (.inr rfl) (by decide) (by decide), rfl, rfl, _, rfl⟩

/-- Sizes at both ends of their ranges: 0 and 1, and the instance's own maximum. -/
theorem test_witness_start :
    [0x0400#16].length ≤ params.maxWords ∧ ([] : List Word).length ≤ params.maxWords ∧ (0 : Int) ≤ params.maxW ∧
    (1 : Int) ≤ params.maxW ∧ (1 : Int) ≤ params.maxH ∧ (0 : Int) < params.maxW ∧ State.reset.phase ≠ .decoding ∧
    ({ State.reset with moves := [.start [0x0400] params.maxW 1] } : State).moves = [.start [0x0400] params.maxW 1] ∧
    ({ State.reset with moves := [.start [] 0 1] } : State).moves = [.start [] 0 1] := by
  have := params_admissible.maxW_pos
  have := params_admissible.maxH_pos
  refine ⟨params_admissible.maxWords_pos, Nat.zero_le _, by omega, by omega, by omega, by omega, by decide, rfl, rfl⟩

theorem test_witness_start_bytes :
    [0x00#8, 0x04#8].length / 2 ≤ params.maxWords ∧ [0x00#8, 0x04#8].length % 2 = 0 ∧ [0x00#8].length / 2 ≤ params.maxWords ∧
    [0x00#8].length % 2 = 1 ∧
    ({ State.reset with moves := [.startBytes [0x00, 0x04] 1 1] } : State).moves = [.startBytes [0x00, 0x04] 1 1] :=
  ⟨params_admissible.maxWords_pos, rfl, Nat.zero_le _, rfl, rfl⟩

theorem test_witness_start_refused :
    (decodingState .mbStart [] 0).phase = .decoding ∧ State.reset.phase ≠ .decoding ∧ (params.maxW : Int) < params.maxW + 1 ∧
    (params.maxH : Int) < params.maxH + 1 ∧ params.maxWords < (List.replicate (params.maxWords + 1) (0#16)).length ∧
    ∃ words, HostMove.start [] (params.maxW + 1) 0 = .start words (params.maxW + 1) 0 ∧ 0 = words.length := by
  refine ⟨rfl, by decide, by omega, by omega, by simp, [], rfl, rfl⟩

theorem test_witness_refusals :
    step { State.reset with moves := [.readImage 0] } = .refused .readImageOutsideDone ∧
    step { State.reset with phase := .done, moves := [.readImage 0] } = .refused .readImageOutOfRange ∧
    step { State.reset with phase := .decoding, moves := [.start [] 1 1] } = .refused .startWhileDecoding ∧
    step { State.reset with moves := [.start [] (params.maxW + 1) 0] } = .refused .startTooLarge := by
  refine ⟨rfl, rfl, rfl, ?_⟩
  have h : params.maxWords < ([] : List Word).length ∨ (params.maxW : Int) < params.maxW + 1 ∨ (params.maxH : Int) < 0 := by omega
  simp only [step, stepBy, hostMove, startMove, if_pos h]
  rfl

theorem test_witness_macroblock_boundary :
    let s := decodingState .mbStart [0x0400] 0
    let s' := decodingState .mbStart [0x0400] 1
    s.phase = .decoding ∧ s.sub = .mbStart ∧ s.moves = [] ∧ s.cursor < s.n ∧
    s'.phase = .decoding ∧ s'.sub = .mbStart ∧ s'.moves = [] ∧ s'.n ≤ s'.cursor := by decide

/-- A block's end, for each of the six blocks; a luma block's quadrant. -/
theorem test_witness_block_end (blk : Fin 6) :
    let s : State := { decodingState .blockEnd [] 0 with blk := blk }
    s.phase = .decoding ∧ s.sub = .blockEnd ∧ s.moves = [] ∧ s.blk = blk ∧ (2 ≤ blk.val → s.blk.val = (blk.val - 2) + 2) := by
  refine ⟨rfl, rfl, rfl, rfl, fun h => ?_⟩
  change blk.val = _
  omega

theorem test_witness_uniform_macroblock :
    (∀ p : Fin 64, Block.zero[p] = 0) ∧ ∀ p : Fin 64, (Vector.replicate 64 (100 : Int))[p] = 100 := by
  refine ⟨fun p => by simp, fun p => by simp⟩

/-- The spec's default instance, and one under JPEG: both admissible. -/
theorem test_witness_admissible :
    tcfg.Admissible ∧ ({ tcfg with norm := .jpeg, idct := fun _ => idctFixed .jpeg } : Params).Admissible := by
  have h : tcfg.Admissible := specDefaults_admissible _ _ (by decide) (by decide) (by decide) (by decide)
  exact ⟨h, h.zigzag, fun _ => idctFixed_conforms .jpeg, h.maxWords_lt, h.maxWords_pos, h.maxW_pos, h.maxH_pos⟩

/-- R241: any two conforming factorisations may take turns, macroblock by macroblock. -/
theorem test_witness_factorisations_mix (f g : Block → Block) (hf : IdctConforms .unitDc f) (hg : IdctConforms .unitDc g) :
    ({ tcfg with idct := fun n => if n % 2 = 0 then f else g } : Params).Admissible := by
  have h := test_witness_admissible.1
  refine ⟨h.zigzag, fun n => ?_, h.maxWords_lt, h.maxWords_pos, h.maxW_pos, h.maxH_pos⟩
  change IdctConforms .unitDc (if n % 2 = 0 then f else g)
  split
  · exact hf
  · exact hg

/-- The Cb block of a decode's eighth macroblock is served by that macroblock's factorisation (R150, R241). -/
theorem test_macroblock_transform :
    after (stepWith { tcfg with idct := fun n _ => Vector.replicate 64 (n : Int) } { decodingState .blockEnd [] 0 with np := 7, blk := 1 })
      (fun t => t.cbbuf) Block.zero = Vector.replicate 64 7 := by decide +kernel

/-- R150: a Cr block and the last luma block of one macroblock, with one COEF. -/
theorem test_witness_same_transform :
    let s : State := { decodingState .blockEnd [] 0 with np := 7, blk := 0 }
    let s' : State := { decodingState .blockEnd [] 0 with np := 7, blk := 5 }
    s.phase = .decoding ∧ s.sub = .blockEnd ∧ s.moves = [] ∧ s'.phase = .decoding ∧ s'.sub = .blockEnd ∧ s'.moves = [] ∧
    s.np = s'.np ∧ s.coef = s'.coef ∧ s.blk ≠ s'.blk ∧ s.blk.val < 5 := by decide

theorem test_witness_default_limits : 0 < 1000 ∧ 1000 < 2 ^ 32 ∧ Block.DcOnly Block.zero := ⟨by decide, by decide, fun p _ => by simp⟩

/-- A DC-only block at the clamp's end, at a block's end. -/
theorem test_witness_dc_only :
    let s : State := { decodingState .blockEnd [] 0 with coef := Block.zero.set 0 (-16384) }
    s.coef.InRange ∧ s.coef.DcOnly ∧ s.phase = .decoding ∧ s.sub = .blockEnd ∧ s.moves = [] := by
  refine ⟨set_inRange zero_inRange 0 (by decide), fun p hp => ?_, rfl, rfl, rfl⟩
  exact (set_getElem Block.zero 0 p (-16384)).trans (by simp [hp])

theorem test_witness_spatial_buffers :
    let s := decodingState .blockEnd [] 0
    s.coef.InRange ∧ s.SpatialFits ∧ ∃ t, step s = .next t := by
  have h : fits22 Block.zero := fun p => by simp
  exact ⟨zero_inRange, ⟨h, h, h⟩, _, rfl⟩

/-- DONE entry with a completed patch, and one pixel of the image inside it. -/
theorem test_witness_done_image :
    let s : State := { decodingState .mbStart [] 0 with w := 2, plist := [Vector.replicate 768 5], np := 1 }
    s.plist.length = s.np ∧ Memory.wf s.image ∧ s.phase = .decoding ∧ 1 < s.w ∧ 0 < s.h ∧ s.w * s.h * 3 ≤ 6 ∧
    ∃ t, step s = .next t ∧ t.phase = .done ∧ t.image ≠ s.image :=
  ⟨rfl, by decide, rfl, by decide, by decide, by decide, _, rfl, rfl, by decide +kernel⟩

theorem test_witness_placement :
    (0 : Nat) ≠ 1 ∧ patchCells 17 16 0 Patch.zero ≠ [] ∧ patchCells 17 16 1 Patch.zero ≠ [] ∧
    Memory.wf [(4, 9)] ∧ [1, 0].Perm (List.range 2) := by decide +kernel

theorem test_witness_host_reads :
    ({ State.reset with moves := [.readStatus] } : State).moves = [.readStatus] ∧
    (let s : State := { State.reset with phase := .done, w := 1, h := 1, moves := [.readImage 2] }
     s.moves = [.readImage 2] ∧ s.phase = .done ∧ 2 < s.w * s.h * 3 ∧ s.w * s.h * 3 ≤ 3) ∧
    State.reset.phase ≠ .done ∧ State.reset.np < 2 ^ 32 ∧ State.reset.cursor < 2 ^ 32 := by decide

theorem test_witness_reset_event :
    ({ decodingState .expectAc [0x0400] 1 with moves := [.reset, .wait] } : State).moves = .reset :: [.wait] := rfl

theorem test_witness_engine_idle : ∀ p ∈ [Phase.idle, .done, .error],
    ({ State.reset with phase := p } : State).phase ≠ .decoding ∧ ({ State.reset with phase := p } : State).moves = [] := by decide

theorem test_witness_done_left :
    let s : State := { State.reset with phase := .done, moves := [.reset] }
    s.phase = .done ∧ ∃ t, step s = .next t ∧ t.phase ≠ .done := ⟨rfl, _, rfl, by decide⟩

/-- CURSOR changed by a word read, and by RESET. -/
theorem test_witness_cursor_changes :
    (∃ t, step (decodingState .expectDc [0xFE00] 0) = .next t ∧ t.cursor ≠ (decodingState .expectDc [0xFE00] 0).cursor) ∧
    ∃ t, step { State.reset with cursor := 1, moves := [.reset] } = .next t ∧ t.cursor ≠ 1 :=
  ⟨⟨_, rfl, by decide⟩, _, rfl, by decide⟩

/-- IMAGE changed by DONE entry (test_witness_done_image), and by RESET. -/
theorem test_witness_image_written :
    ∃ t, step { State.reset with image := [(0, 1)], moves := [.reset] } = .next t ∧ t.image ≠ [(0, 1)] := ⟨_, rfl, by decide⟩

/-- A decode's step from a state that meets the invariants, no RESET pending. -/
theorem test_witness_invariants :
    let s := decodingState .mbStart [0x0400] 0
    s.Inv params ∧ s.phase = .decoding ∧ (∃ t, step s = .next t) ∧ ∀ rest, s.moves ≠ .reset :: rest :=
  ⟨decodingState_inv (.inl rfl) (by decide) (by decide), rfl, ⟨_, rfl⟩, fun _ h => by cases h⟩

theorem test_witness_every_decode_terminates :
    let s : State := { State.reset with moves := [.start [0x0400] 1 1] }
    s.phase ≠ .decoding ∧ s.moves = [.start [0x0400] 1 1] ∧ [0x0400#16].length ≤ params.maxWords ∧ (1 : Int) ≤ params.maxW ∧
    (1 : Int) ≤ params.maxH := by
  have := params_admissible.maxW_pos
  have := params_admissible.maxH_pos
  exact ⟨by decide, rfl, params_admissible.maxWords_pos, by omega, by omega⟩

/-- Two machines with different pasts, each taking the same START. -/
theorem test_witness_history :
    let s : State := { State.reset with moves := [.start [0x0400] 1 1] }
    let s' : State := { State.reset with phase := .done, cursor := 12, np := 1, moves := [.start [0x0400] 1 1] }
    s.phase ≠ .decoding ∧ s'.phase ≠ .decoding ∧ (∃ t, Host.Core.run Sys2Proof.core (0 + 1) s = .next t) ∧
    ∃ t, Host.Core.run Sys2Proof.core (0 + 1) s' = .next t := by
  exact ⟨by decide, by decide, run_start_one rfl (by decide) (by decide), run_start_one rfl (by decide) (by decide)⟩

end Sys2Proof.Tests
end

section
/-! PROOF. Encoding (spec 30_encoding.md R70 to R80): the fields of a packed word, the decoder's reading of every word by context, decoder
and encoder as inverses, the operand values, and that no step ends in a fault (60_exceptions.md R201). -/

namespace Sys2Proof.Machine

open Sys2Proof.Laws.Sentinel (packWord_inj packWord_eq_sentinel)

/-! ### Fields and words -/

/-- Every word is its two fields (R71). -/
@[simp] theorem packWord_hi6_lo10 (w : Word) : packWord (hi6 w) (lo10 w) = w :=
  BitVec.extractLsb'_append_extractLsb'_eq_extractLsb' (by decide) |>.trans BitVec.extractLsb'_eq_self

@[simp] theorem hi6_packWord (hi : BitVec 6) (lo : BitVec 10) : hi6 (packWord hi lo) = hi :=
  (packWord_inj (packWord_hi6_lo10 (packWord hi lo))).1

@[simp] theorem lo10_packWord (hi : BitVec 6) (lo : BitVec 10) : lo10 (packWord hi lo) = lo :=
  (packWord_inj (packWord_hi6_lo10 (packWord hi lo))).2

/-- The high field as the quotient of the word by 2^10 (R71). -/
theorem hi6_eq_ofNat (w : Word) : hi6 w = BitVec.ofNat 6 (w.toNat / 1024) := by
  rw [← hi6_toNat, BitVec.ofNat_toNat, BitVec.setWidth_eq]

/-- The low field as the remainder of the word by 2^10 (R71). -/
theorem lo10_eq_ofNat (w : Word) : lo10 w = BitVec.ofNat 10 (w.toNat % 1024) := by
  rw [← lo10_toNat, BitVec.ofNat_toNat, BitVec.setWidth_eq]

/-- The sentinel is tested on all 16 bits (R74). -/
theorem eq_sentinel_iff_toNat (w : Word) : w = sentinel ↔ w.toNat = 0xFE00 := BitVec.toNat_inj.symm

/-- A field pair with an encoding is one that does not pack to the sentinel (R75). -/
theorem sentinelFields_eq_false_iff (hi : BitVec 6) (lo : BitVec 10) :
    (!sentinelFields hi lo) = true ↔ packWord hi lo ≠ sentinel := by
  rw [sentinel, Ne, packWord_eq_sentinel, Bool.not_eq_true', Bool.not_eq_true]

@[simp] theorem wellFormed_dc_iff (q : BitVec 6) (amp : BitVec 10) : (Instr.dc q amp).WellFormed ↔ packWord q amp ≠ sentinel :=
  sentinelFields_eq_false_iff q amp

@[simp] theorem wellFormed_ac_iff (run : BitVec 6) (amp : BitVec 10) : (Instr.ac run amp).WellFormed ↔ packWord run amp ≠ sentinel :=
  sentinelFields_eq_false_iff run amp

/-! ### The decoder's reading of a word, one equation per row of R76's table -/

@[simp] theorem decode_mbStart (w : Word) : decode .mbStart w = .error (.noWordReadIn .mbStart) := rfl

@[simp] theorem decode_blockEnd (w : Word) : decode .blockEnd w = .error (.noWordReadIn .blockEnd) := rfl

@[simp] theorem decode_expectDc_sentinel : decode .expectDc sentinel = .ok .stuff := rfl

@[simp] theorem decode_expectAc_sentinel : decode .expectAc sentinel = .ok .eob := rfl

theorem decode_expectDc_of_ne {w : Word} (h : w ≠ sentinel) : decode .expectDc w = .ok (.dc (hi6 w) (lo10 w)) := if_neg h

theorem decode_expectAc_of_ne {w : Word} (h : w ≠ sentinel) : decode .expectAc w = .ok (.ac (hi6 w) (lo10 w)) := if_neg h

/-! ### Decoder and encoder are inverse (R80) -/

theorem decode_encode (i : Instr) (h : i.WellFormed) : decode i.context (encode i) = .ok i := by
  cases i with
  | stuff => exact decode_expectDc_sentinel
  | eob => exact decode_expectAc_sentinel
  | dc q amp =>
    have hne : packWord q amp ≠ sentinel := (wellFormed_dc_iff q amp).1 h
    have hdec := decode_expectDc_of_ne hne
    rwa [hi6_packWord, lo10_packWord] at hdec
  | ac run amp =>
    have hne : packWord run amp ≠ sentinel := (wellFormed_ac_iff run amp).1 h
    have hdec := decode_expectAc_of_ne hne
    rwa [hi6_packWord, lo10_packWord] at hdec

/-- A word the engine can read is the word of a well-formed instruction of that context (R76, R78). -/
theorem exists_encode_eq {sub : Sub} (h : sub = .expectDc ∨ sub = .expectAc) (w : Word) :
    ∃ i : Instr, encode i = w ∧ i.context = sub ∧ i.WellFormed := by
  by_cases hw : w = sentinel
  · rcases h with rfl | rfl
    · exact ⟨.stuff, hw.symm, rfl, rfl⟩
    · exact ⟨.eob, hw.symm, rfl, rfl⟩
  · rcases h with rfl | rfl
    · exact ⟨.dc (hi6 w) (lo10 w), packWord_hi6_lo10 w, rfl, by simpa using hw⟩
    · exact ⟨.ac (hi6 w) (lo10 w), packWord_hi6_lo10 w, rfl, by simpa using hw⟩

/-- Only the two contexts of R76 read a word. -/
theorem reads_of_decode_ok {sub : Sub} {w : Word} {i : Instr} (h : decode sub w = .ok i) : sub = .expectDc ∨ sub = .expectAc := by
  cases sub with
  | expectDc => exact .inl rfl
  | expectAc => exact .inr rfl
  | mbStart => cases h
  | blockEnd => cases h

/-- What the decoder reads is the one well-formed instruction of that context with that word. -/
theorem encode_of_decode {sub : Sub} {w : Word} {i : Instr} (h : decode sub w = .ok i) :
    encode i = w ∧ i.context = sub ∧ i.WellFormed := by
  obtain ⟨j, rfl, rfl, hj⟩ := exists_encode_eq (reads_of_decode_ok h) w
  obtain rfl : j = i := Except.ok.inj ((decode_encode j hj).symm.trans h)
  exact ⟨rfl, rfl, hj⟩

/-- R76's EXPECT_DC row, in numbers. -/
theorem decode_expectDc_toNat (w : Word) :
    decode .expectDc w =
      .ok (if w.toNat = 0xFE00 then .stuff else .dc (BitVec.ofNat 6 (w.toNat / 1024)) (BitVec.ofNat 10 (w.toNat % 1024))) := by
  split
  next h => rw [(eq_sentinel_iff_toNat w).2 h, decode_expectDc_sentinel]
  next h => rw [decode_expectDc_of_ne (mt (eq_sentinel_iff_toNat w).1 h), hi6_eq_ofNat, lo10_eq_ofNat]

/-- R76's EXPECT_AC row, in numbers. -/
theorem decode_expectAc_toNat (w : Word) :
    decode .expectAc w =
      .ok (if w.toNat = 0xFE00 then .eob else .ac (BitVec.ofNat 6 (w.toNat / 1024)) (BitVec.ofNat 10 (w.toNat % 1024))) := by
  split
  next h => rw [(eq_sentinel_iff_toNat w).2 h, decode_expectAc_sentinel]
  next h => rw [decode_expectAc_of_ne (mt (eq_sentinel_iff_toNat w).1 h), hi6_eq_ofNat, lo10_eq_ofNat]

/-! ### Operand values (R72) -/

theorem zext6_hi6 (w : Word) : zext6 (hi6 w) = w.toNat / 1024 := hi6_toNat w

theorem zext6_le (f : BitVec 6) : zext6 f ≤ 63 := Nat.le_of_lt_succ f.isLt

/-- The sign extension of the low field, from bit 9. -/
theorem sext10_lo10 (w : Word) :
    sext10 (lo10 w) = if w.toNat % 1024 < 512 then ((w.toNat % 1024 : Nat) : Int) else ((w.toNat % 1024 : Nat) : Int) - 1024 := by
  rw [sext10, BitVec.toInt_eq_toNat_cond, lo10_toNat]
  split <;> split <;> omega

theorem sext10_bounds (f : BitVec 10) : -512 ≤ sext10 f ∧ sext10 f ≤ 511 :=
  ⟨BitVec.le_toInt f, Int.le_of_lt_add_one (BitVec.toInt_lt (x := f))⟩

/-! ### No step faults (R201) -/

@[simp] theorem safe_next (s : State) : Safe (.next s) := fun _ h => nomatch h

@[simp] theorem safe_refused (r : Refusal) : Safe (.refused r) := fun _ h => nomatch h

theorem execWith_safe (P : Params) (i : Instr) (s : State) : Safe (execWith P i s) := by
  obtain ⟨t, ht, -⟩ := execWith_cases P i s
  rw [ht]
  exact safe_next t

/-- The engine adds no fault to those of the words' meanings: each word it fetches has a reading (R78). -/
theorem engineStep_safe (P : Params) {ex : Instr → State → Result} (hex : ∀ i s, Safe (ex i s)) (s : State) :
    Safe (engineStep P ex s) := by
  rcases engineStep_cases P ex s with ⟨-, e⟩ | ⟨-, -, -, e⟩ | ⟨-, -, -, e⟩ | ⟨-, -, -, e⟩ | ⟨w, i, -, -, -, -, -, e⟩ | ⟨-, -, e⟩ <;> rw [e]
  · exact safe_next s
  · exact safe_next _
  · exact safe_next _
  · exact safe_next _
  · exact hex i s.consume
  · exact safe_next _

theorem startMove_safe (P : Params) (words : List Word) (odd : Bool) (w h : Int) (s : State) : Safe (startMove P words odd w h s) := by
  rcases startMove_cases P words odd w h s with ⟨-, e⟩ | ⟨-, -, e⟩ | ⟨-, -, -, -, -, e⟩ | ⟨-, -, -, -, -, -, -, e⟩ <;> simp [e]

theorem readImageMove_safe (i : Nat) (s : State) : Safe (readImageMove i s) := by
  rcases readImageMove_cases i s with ⟨-, -, e⟩ | ⟨-, -, e⟩ | ⟨-, e⟩ <;> simp [e]

/-- No step under any parameters faults, if no word's meaning does. -/
theorem stepBy_safe (P : Params) {ex : Instr → State → Result} (hex : ∀ i s, Safe (ex i s)) (s : State) : Safe (stepBy P ex s) := by
  rcases stepBy_cases P ex s with ⟨-, e⟩ | ⟨rest, -, e⟩ | ⟨rest, -, e⟩ | ⟨words, w, h, rest, -, e⟩ | ⟨bytes, w, h, rest, -, e⟩ |
    ⟨rest, -, e⟩ | ⟨i, rest, -, e⟩ <;> rw [e]
  · exact engineStep_safe P hex s
  · exact engineStep_safe P hex _
  · exact safe_next _
  · exact startMove_safe P words false w h _
  · exact startMove_safe P _ _ w h _
  · exact safe_next _
  · exact readImageMove_safe i _

/-! ### The obligations -/

/-- Settles O2: the fields of a packed word are the pair that was packed, and the pairs that pack to the sentinel are not well-formed. -/
theorem decodeOfEncode : Obligations.DecodeOfEncode := decode_encode

/-- Settles O3: every word a context reads is the encoding of a well-formed instruction of that context, and `decode_encode` says the
decoder reads that one. -/
theorem encodeOfDecode : Obligations.EncodeOfDecode := fun _ _ _ => encode_of_decode

/-- Settles O4, by R76's table row by row. -/
theorem readingByContext : Obligations.ReadingByContext := fun w =>
  ⟨decode_expectDc_toNat w, decode_expectAc_toNat w, decode_mbStart w, decode_blockEnd w⟩

/-- Settles O5, from the fields of a word as numbers. -/
theorem operandValues : Obligations.OperandValues := fun w =>
  ⟨zext6_hi6 w, zext6_le _, sext10_lo10 w, sext10_bounds _⟩

/-- Settles O27: the one fault the model names needs a word with no reading, and R78 leaves none. -/
theorem noStepFaults : Obligations.NoStepFaults := fun s => by
  rw [step_eq_stepWith]
  exact stepBy_safe params (execWith_safe params) s

end Sys2Proof.Machine
end

section
/-! PROOF. The four word classes and the dequantizers (spec 40_block_decoder.md R100, R110 to R113, R116): what each word writes and its
frame, the dequantized values over the integers, and the engine's step that reads a word. -/

namespace Sys2Proof.Machine

/-! ### The dequantizers (R111, R113) -/

/-- The clamp of both dequantizers, with the bounds in the order the rules name them. -/
theorem clampCoef_eq (v : Int) : clampCoef v = max (-16384) (min 16383 v) := by
  unfold clampCoef clamp
  omega

theorem dqDc_eq (amp t0 : Int) : dqDc amp t0 = max (-16384) (min 16383 (if t0 = 0 then amp * 2 else amp * t0)) :=
  clampCoef_eq _

/-- The arithmetic shift right by 3 is the floor of an eighth (D8). -/
theorem asr_three_eq_floor (z : Int) : asr z 3 = ⌊(z : ℚ) / 8⌋ :=
  (Rat.floor_intCast_div_natCast z 8).symm

theorem dqAc_eq (amp e q : Int) :
    dqAc amp e q = max (-16384) (min 16383 (if e * q = 0 then amp * 2 else ⌊((amp * e * q + 4 : Int) : ℚ) / 8⌋)) := by
  rw [dqAc, clampCoef_eq, asr_three_eq_floor]

/-- R111's bound on the product, from the ranges of an amplitude and of a table entry. -/
theorem abs_mul_le_of_operands {amp t0 : Int} (h1 : -512 ≤ amp) (h2 : amp ≤ 511) (h3 : 0 ≤ t0) (h4 : t0 ≤ 255) :
    |amp * t0| ≤ 130560 := by
  have hamp : |amp| ≤ 512 := abs_le.2 ⟨h1, by omega⟩
  have ht0 : |t0| ≤ 255 := abs_le.2 ⟨by omega, h4⟩
  calc |amp * t0| = |amp| * |t0| := abs_mul amp t0
    _ ≤ 512 * 255 := mul_le_mul hamp ht0 (abs_nonneg t0) (by omega)

/-- TBL(BLK)[p], the table chosen by the block (R25, R26). -/
theorem tableEntry_eq (T : Tables) (blk : Fin 6) (p : Fin 64) :
    tableEntry T blk p = if blk.val < 2 then (T.qtC[p].toNat : Int) else (T.qtY[p].toNat : Int) := by
  unfold tableEntry tableOf
  split <;> rfl

/-! ### The words, one equation per class and outcome -/

@[simp] theorem exec_stuff (s : State) : exec .stuff s = .next s := rfl

@[simp] theorem exec_eob (s : State) : exec .eob s = .next (s.setSub .blockEnd) := rfl

@[simp] theorem exec_dc (q : BitVec 6) (amp : BitVec 10) (s : State) :
    exec (.dc q amp) s = .next (s.loadDc q (dqDc amp.toInt (tableEntry params.toTables s.blk 0))) := rfl

theorem exec_ac_of_lt {run : BitVec 6} {s : State} (amp : BitVec 10) {k : Nat} (hk : k < 64) (e : s.k.toNat + run.toNat = k) :
    exec (.ac run amp) s =
      .next (s.storeAc k params.zz[k] (dqAc amp.toInt (tableEntry params.toTables s.blk params.zz[k]) s.q.toNat)) := by
  subst e
  rcases acWord_cases params run amp s with ⟨_, _, rfl, hx⟩ | ⟨h, -⟩
  · exact hx
  · omega

theorem exec_ac_of_le {run : BitVec 6} {s : State} (amp : BitVec 10) (h : 64 ≤ s.k.toNat + run.toNat) :
    exec (.ac run amp) s = .next (s.overrun (s.k.toNat + run.toNat)) := by
  rcases acWord_cases params run amp s with ⟨k, hk, e, -⟩ | ⟨-, hx⟩
  · omega
  · exact hx

/-- Every next state of a word, as cases of the word: the inversion form of `execWith_cases`. -/
theorem cases_of_execWith_eq_next {P : Params} {i : Instr} {s t : State} (h : execWith P i s = .next t) :
    (i = .stuff ∧ t = s) ∨
    (∃ q amp, i = .dc q amp ∧ t = s.loadDc q (dqDc amp.toInt (tableEntry P.toTables s.blk 0))) ∨
    (i = .eob ∧ t = s.setSub .blockEnd) ∨
    (∃ run amp, ∃ (k : Nat) (hk : k < 64), i = .ac run amp ∧ k = s.k.toNat + run.toNat ∧
      t = s.storeAc k P.zz[k] (dqAc amp.toInt (tableEntry P.toTables s.blk P.zz[k]) s.q.toNat)) ∨
    (∃ run amp, i = .ac run amp ∧ 64 ≤ s.k.toNat + run.toNat ∧ t = s.overrun (s.k.toNat + run.toNat)) := by
  obtain ⟨t', h', hc⟩ := execWith_cases P i s
  obtain rfl : t' = t := Host.Outcome.next.inj (h'.symm.trans h)
  exact hc

/-- The frame of every word: Q, COEF, K and SUB are all it can write. -/
theorem execWith_frame {P : Params} {i : Instr} {s t : State} (h : execWith P i s = .next t) :
    ∃ q coef k sub, t = { s with q := q, coef := coef, k := k, sub := sub } := by
  rcases cases_of_execWith_eq_next h with ⟨-, rfl⟩ | ⟨q, amp, -, rfl⟩ | ⟨-, rfl⟩ | ⟨run, amp, k, hk, -, -, rfl⟩ | ⟨run, amp, -, -, rfl⟩
  all_goals exact ⟨_, _, _, _, rfl⟩

/-- Only DC writes Q. -/
theorem execWith_q {P : Params} {i : Instr} {s t : State} (h : execWith P i s = .next t) (hi : ∀ q amp, i ≠ .dc q amp) :
    t.q = s.q := by
  rcases cases_of_execWith_eq_next h with ⟨-, rfl⟩ | ⟨q, amp, e, -⟩ | ⟨-, rfl⟩ | ⟨run, amp, k, hk, -, -, rfl⟩ | ⟨run, amp, -, -, rfl⟩
  case inr.inl => exact absurd e (hi q amp)
  all_goals rfl

/-- A DC word's COEF: everything cleared but position 0 (R110). -/
theorem loadDc_inRange (q : BitVec 6) (amp t0 : Int) (s : State) : (s.loadDc q (dqDc amp t0)).coef.InRange :=
  set_inRange zero_inRange 0 (dqDc_bounds amp t0)

/-- Every word keeps COEF in the clamp range (R116). -/
theorem execWith_inRange {P : Params} {i : Instr} {s t : State} (hs : s.coef.InRange) (h : execWith P i s = .next t) :
    t.coef.InRange := by
  rcases cases_of_execWith_eq_next h with ⟨-, rfl⟩ | ⟨q, amp, -, rfl⟩ | ⟨-, rfl⟩ | ⟨run, amp, k, hk, -, -, rfl⟩ | ⟨run, amp, -, -, rfl⟩
  · exact hs
  · exact loadDc_inRange q _ _ s
  · exact hs
  · exact set_inRange hs _ (dqAc_bounds _ _ _)
  · exact hs

/-! ### The engine's step that reads a word (R100, R187) -/

theorem engineStep_of_reads (P : Params) (ex : Instr → State → Result) {s : State} (hp : s.phase = .decoding)
    (hs : s.sub = .expectDc ∨ s.sub = .expectAc) : engineStep P ex s = readWord ex s := by
  rcases hs with h | h <;> simp only [engineStep, hp, h]

/-- A word read: its meaning, after CURSOR advanced. -/
theorem engineStep_of_decode (P : Params) (ex : Instr → State → Result) {s : State} {w : Word} {i : Instr} (hp : s.phase = .decoding)
    (hw : s.words[s.cursor]? = some w) (hi : decode s.sub w = .ok i) : engineStep P ex s = ex i s.consume := by
  rw [engineStep_of_reads P ex hp (reads_of_decode_ok hi)]
  simp only [readWord, nextWord, hw, hi]

/-- The same for the machine's step, no host move pending. -/
theorem step_of_decode {s : State} {w : Word} {i : Instr} (hp : s.phase = .decoding) (hm : s.moves = [])
    (hw : s.words[s.cursor]? = some w) (hi : decode s.sub w = .ok i) : step s = exec i s.consume :=
  (step_engine hm).trans (engineStep_of_decode params exec hp hw hi)

/-- No word left: EndOfStream (R203). -/
theorem step_endOfStream {s : State} (hp : s.phase = .decoding) (hs : s.sub = .expectDc ∨ s.sub = .expectAc) (hm : s.moves = [])
    (hn : s.n ≤ s.cursor) : step s = .next (takeException .endOfStream s) := by
  rw [step_engine hm, engineStep_of_reads params exec hp hs]
  rcases readWord_cases exec hs with ⟨-, e⟩ | ⟨w, i, h, -⟩
  · exact e
  · omega

/-! ### The obligations -/

/-- Settles O9: the clamp with its bounds swapped, and the product's bound from those of its factors. -/
theorem dcDequantizer : Obligations.DcDequantizer :=
  ⟨dqDc_eq, fun _ _ => abs_mul_le_of_operands, by decide⟩

/-- Settles O12: in a sub-state that reads the word, NextWord takes it and the dispatch passes it on. -/
theorem stepRunsDecodedWord : Obligations.StepRunsDecodedWord := fun s w i hp hw hi =>
  ⟨fun hm => step_of_decode hp hm hw hi, fun rest hm => by
    have hstep : step s = engineStep params exec (s.setMoves rest) := by simp only [step, stepBy, hm, hostMove]
    exact hstep.trans (engineStep_of_decode params exec (s := s.setMoves rest) hp hw hi)⟩

/-- Settles O13. -/
theorem stuffingWordSkipped : Obligations.StuffingWordSkipped := exec_stuff

/-- Settles O14, from `exec_dc`: COEF is the zero block with the dequantized value at position 0. -/
theorem dcWordEffect : Obligations.DcWordEffect := fun q amp s => by
  refine ⟨_, exec_dc q amp s, rfl, rfl, rfl, ?_, fun p hp => ?_, rfl⟩
  · rw [loadDc_coef, Vector.getElem_set_self, dqDc_eq, tableEntry_eq]
    rfl
  · rw [loadDc_coef]
    exact (set_getElem Block.zero 0 p _).trans (by simp [hp])

/-- Settles O15. -/
theorem endOfBlockWord : Obligations.EndOfBlockWord := exec_eob

/-- Settles O16, from `exec_ac_of_lt`: COEF is the old block with the dequantized value at the run's position. -/
theorem acWordStores : Obligations.AcWordStores := fun run amp s k hk e => by
  refine ⟨_, exec_ac_of_lt amp hk e, ⟨?_, fun p' hp' => ?_⟩, ?_, ?_, rfl⟩
  · rw [storeAc_coef, set_getElem, if_pos rfl, dqAc_eq, tableEntry_eq]
  · rw [storeAc_coef, set_getElem, if_neg hp']
  · rw [storeAc_k, BitVec.toNat_ofNat]
    omega
  · rw [storeAc_sub]
    exact if_congr (by omega) rfl rfl

/-- Settles O17, from `exec_ac_of_le`: K holds the sum's low 7 bits, and K ≤ 64 with a run of at most 63 leaves the sum below 128. -/
theorem acWordOverruns : Obligations.AcWordOverruns := fun run amp s h => by
  have hk : (BitVec.ofNat 7 (s.k.toNat + run.toNat)).toNat = (s.k.toNat + run.toNat) % 128 := BitVec.toNat_ofNat _ _
  refine ⟨_, exec_ac_of_le amp h, rfl, hk, fun h64 => ?_, rfl⟩
  have hrun := zext6_le run
  rw [overrun_k, hk, Nat.mod_eq_of_lt]
  unfold zext6 at hrun
  omega

/-- Settles O11. -/
theorem coefficientsStayInRange : Obligations.CoefficientsStayInRange :=
  ⟨fun q amp s t h => by
    obtain rfl := Host.Outcome.next.inj ((exec_dc q amp s).symm.trans h)
    exact loadDc_inRange q _ _ s,
   fun i s _ hs h => execWith_inRange hs ((exec_eq_execWith i s).symm.trans h)⟩

/-- Settles O20: the frame of every word, and what each class leaves of Q, COEF, K and SUB. -/
theorem wordFrame : Obligations.WordFrame := fun i s t h => by
  have hw : execWith params i s = .next t := (exec_eq_execWith i s).symm.trans h
  have hq := execWith_q hw
  have hsub : i = .stuff → t.sub = s.sub := by
    rintro rfl
    cases h
    rfl
  have hcoef : i = .stuff ∨ i = .eob → t.coef = s.coef ∧ t.k = s.k := by
    rintro (rfl | rfl) <;> cases h <;> exact ⟨rfl, rfl⟩
  obtain ⟨q, coef, k, sub, rfl⟩ := execWith_frame hw
  exact ⟨rfl, rfl, rfl, rfl, rfl, rfl, rfl, rfl, rfl, rfl, rfl, rfl, rfl, rfl, rfl, fun _ => rfl, hq, hcoef, hsub⟩

end Sys2Proof.Machine
end

section
/-! PROOF. The engine's steps (spec 40_block_decoder.md R110, R112, R114; 43_macroblock_and_image_assembly.md R183 to R185): the whole
step in EXPECT_DC and in EXPECT_AC, which words end a block, and what writes CURSOR. -/

namespace Sys2Proof.Machine

/-! ### What the steps that read no word can do -/

/-- Routing a block writes CRBUF, CBBUF and PATCH alone (R183). -/
theorem routeBlock_frame (P : Params) (s : State) :
    ∃ crbuf cbbuf patch, routeBlock P s = { s with crbuf := crbuf, cbbuf := cbbuf, patch := patch } := by
  rcases routeBlock_cases P s with ⟨-, e⟩ | ⟨-, e⟩ | ⟨qd, -, e⟩ <;> exact ⟨_, _, _, e⟩

/-- BLOCK_END but for the values in the spatial buffers: the next block of the macroblock, or the finished patch (R184, R185). -/
theorem blockEndStep_cases (P : Params) (s : State) :
    (∃ spat crbuf cbbuf patch, ∃ b : Fin 6, s.blk.val < 5 ∧ b.val = s.blk.val + 1 ∧
      blockEndStep P s = State.nextBlock { s with spat := spat, crbuf := crbuf, cbbuf := cbbuf, patch := patch } b) ∨
    (∃ spat crbuf cbbuf patch, s.blk.val = 5 ∧
      blockEndStep P s = State.completeMacroblock { s with spat := spat, crbuf := crbuf, cbbuf := cbbuf, patch := patch }) := by
  obtain ⟨crbuf, cbbuf, patch, hr⟩ := routeBlock_frame P { s with spat := P.idct s.np s.coef }
  rw [blockEndStep, hr]
  rcases advanceBlock_cases { s with spat := P.idct s.np s.coef, crbuf := crbuf, cbbuf := cbbuf, patch := patch } with
    ⟨b, h5, hb, e⟩ | ⟨h5, e⟩
  · exact .inl ⟨_, _, _, _, b, h5, hb, e⟩
  · exact .inr ⟨_, _, _, _, h5, e⟩

@[simp] theorem takeException_cursor (e : Exception) (s : State) : (takeException e s).cursor = s.cursor := by cases e <;> rfl

@[simp] theorem blockEndStep_cursor (P : Params) (s : State) : (blockEndStep P s).cursor = s.cursor := by
  rcases blockEndStep_cases P s with ⟨_, _, _, _, b, -, -, e⟩ | ⟨_, _, _, _, -, e⟩ <;> rw [e] <;> rfl

/-! ### A word read -/

theorem execWith_cursor {P : Params} {i : Instr} {s t : State} (h : execWith P i s = .next t) : t.cursor = s.cursor := by
  obtain ⟨q, coef, k, sub, rfl⟩ := execWith_frame h
  rfl

/-- A store ends the block at index 63 alone (R112). -/
theorem storeAc_sub_eq_blockEnd_iff {s : State} (hs : s.sub ≠ .blockEnd) {k : Nat} (hk : k < 64) (p : Fin 64) (v : Int) :
    (s.storeAc k p v).sub = .blockEnd ↔ k = 63 := by
  rw [storeAc_sub]
  split
  · exact iff_of_true rfl (by omega)
  · exact iff_of_false hs (by omega)

/-- The words that end a block: EOB, and an AC word whose run takes K to 63 or beyond (R114). -/
theorem execWith_sub_eq_blockEnd_iff {P : Params} {i : Instr} {s t : State} (hs : s.sub ≠ .blockEnd) (h : execWith P i s = .next t) :
    t.sub = .blockEnd ↔ i = .eob ∨ ∃ run amp, i = .ac run amp ∧ (64 ≤ s.k.toNat + run.toNat ∨ s.k.toNat + run.toNat = 63) := by
  rcases cases_of_execWith_eq_next h with ⟨rfl, rfl⟩ | ⟨q, amp, rfl, rfl⟩ | ⟨rfl, rfl⟩ | ⟨run, amp, k, hk, rfl, e, rfl⟩ |
    ⟨run, amp, rfl, hk, rfl⟩
  · simp [hs]
  · simp
  · simp
  · rw [storeAc_sub_eq_blockEnd_iff hs hk]
    constructor
    · rintro rfl
      exact .inr ⟨run, amp, rfl, .inr e.symm⟩
    · rintro (he | ⟨_, _, he, hr⟩) <;> cases he
      omega
  · simp [hk]

/-- R114's condition on the word itself. -/
theorem endsBlock_iff_word {s : State} {w : Word} {i : Instr} (hi : decode s.sub w = .ok i) :
    (i = .eob ∨ ∃ run amp, i = .ac run amp ∧ (64 ≤ s.k.toNat + run.toNat ∨ s.k.toNat + run.toNat = 63)) ↔
      s.sub = .expectAc ∧ (w = 0xFE00#16 ∨ 64 ≤ s.k.toNat + w.toNat / 1024 ∨ s.k.toNat + w.toNat / 1024 = 63) := by
  obtain ⟨-, hctx, -⟩ := encode_of_decode hi
  rcases reads_of_decode_ok hi with hs | hs
  · rw [hs] at hctx
    cases i <;> simp_all [Instr.context]
  · rw [hs] at hi
    by_cases hw : w = sentinel
    · cases (hw ▸ hi : decode .expectAc sentinel = .ok i)
      exact iff_of_true (.inl rfl) ⟨hs, .inl hw⟩
    · obtain rfl := Except.ok.inj ((decode_expectAc_of_ne hw).symm.trans hi)
      have hw' : w ≠ 0xFE00#16 := hw
      simp [hs, hw', hi6_toNat]

/-! ### What writes CURSOR (R102) -/

theorem engineStep_cursor {P : Params} {s t : State} (h : engineStep P (execWith P) s = .next t) (hne : t.cursor ≠ s.cursor) :
    t.cursor = s.cursor + 1 ∧ s.phase = .decoding ∧ (s.sub = .expectDc ∨ s.sub = .expectAc) ∧ s.cursor < s.n := by
  rcases engineStep_cases P (execWith P) s with ⟨-, e⟩ | ⟨-, -, -, e⟩ | ⟨-, -, -, e⟩ | ⟨-, -, -, e⟩ | ⟨w, i, hp, hs, hc, -, -, e⟩ |
    ⟨-, -, e⟩
  case inr.inr.inr.inr.inl => exact ⟨execWith_cursor (e.symm.trans h), hp, hs, hc⟩
  all_goals
    obtain rfl := Host.Outcome.next.inj (e.symm.trans h)
    simp at hne

/-- A START sets CURSOR to 0, or leaves it where it fails. -/
theorem startMove_cursor {P : Params} {words : List Word} {odd : Bool} {w h : Int} {s t : State}
    (e : startMove P words odd w h s = .next t) (hne : t.cursor ≠ s.cursor) : t.cursor = 0 := by
  rcases startMove_cases P words odd w h s with ⟨-, e'⟩ | ⟨-, -, e'⟩ | ⟨-, -, -, -, -, e'⟩ | ⟨-, -, -, -, -, -, -, e'⟩ <;>
    cases e'.symm.trans e
  · exact absurd rfl hne
  · rfl

theorem readImageMove_cursor {i : Nat} {s t : State} (e : readImageMove i s = .next t) : t.cursor = s.cursor := by
  rcases readImageMove_cases i s with ⟨-, -, e'⟩ | ⟨-, -, e'⟩ | ⟨-, e'⟩ <;> cases e'.symm.trans e
  rfl

/-! ### The obligations -/

/-- Settles O18: EndOfStream, else the decoded word's effect on the state NextWord left. -/
theorem expectDcStep : Obligations.ExpectDcStep := fun s hp hs hm => by
  refine ⟨fun hn => ⟨_, step_endOfStream hp (.inl hs) hm hn, rfl, rfl, rfl⟩, fun w hw => ⟨?_, fun hne => ?_⟩⟩
  · rintro rfl
    exact step_of_decode hp hm hw (hs ▸ decode_expectDc_sentinel)
  · have hstep := step_of_decode hp hm hw (hs ▸ decode_expectDc_of_ne hne)
    obtain ⟨t, ht, hq, hk, hsub, hdc, hzero, hf⟩ := dcWordEffect (hi6 w) (lo10 w) s.consume
    refine ⟨t, hstep.trans ht, ⟨by rw [hq, hi6_toNat], hk, ?_, hzero⟩, by rw [← hsub]; exact hf⟩
    rw [← sext10_lo10]
    exact hdc

/-- Settles O19: EndOfStream, else the decoded word's effect on the state NextWord left. -/
theorem expectAcStep : Obligations.ExpectAcStep := fun s hp hs hm h1 h63 => by
  refine ⟨fun hn => ⟨_, step_endOfStream hp (.inr hs) hm hn, rfl, rfl, rfl⟩, fun w hw => ⟨?_, fun hne hk => ?_, fun hne k hk e => ?_⟩⟩
  · rintro rfl
    exact step_of_decode hp hm hw (hs ▸ decode_expectAc_sentinel)
  · have hstep := step_of_decode hp hm hw (hs ▸ decode_expectAc_of_ne hne)
    rw [← hi6_toNat] at hk ⊢
    obtain ⟨t, ht, hsub, -, hsum, hf⟩ := acWordOverruns (hi6 w) (lo10 w) s.consume hk
    exact ⟨t, hstep.trans ht, hsum (Nat.le_succ_of_le h63), by rw [← hsub]; exact hf⟩
  · have hstep := step_of_decode hp hm hw (hs ▸ decode_expectAc_of_ne hne)
    rw [← hi6_toNat] at e
    obtain ⟨t, ht, hcoef, hk', hsub, hf⟩ := acWordStores (hi6 w) (lo10 w) s.consume k hk e
    rw [consume_sub, hs] at hsub
    refine ⟨t, hstep.trans ht, ?_, hk', by rw [← hsub]; exact hf⟩
    rw [← sext10_lo10]
    exact hcoef

/-- Settles O21: of the engine's steps only a word read can lead to BLOCK_END, and `execWith_sub_eq_blockEnd_iff` says for which words. -/
theorem blockEndsInThreeWays : Obligations.BlockEndsInThreeWays := fun s t hp hm hs h => by
  rw [step_engine hm] at h
  rcases engineStep_cases params exec s with ⟨hn, -⟩ | ⟨-, hmb, -, e⟩ | ⟨-, hmb, -, e⟩ | ⟨-, -, hn, e⟩ | ⟨w, i, -, -, -, hw, hi, e⟩ |
    ⟨-, hb, -⟩
  · exact absurd hp hn
  · obtain rfl := Host.Outcome.next.inj (e.symm.trans h)
    simp [hmb]
  · obtain rfl := Host.Outcome.next.inj (e.symm.trans h)
    simp [hmb]
  · obtain rfl := Host.Outcome.next.inj (e.symm.trans h)
    refine iff_of_false hs ?_
    rintro ⟨-, w, hw, -⟩
    rw [List.getElem?_eq_none hn] at hw
    cases hw
  · have hex : execWith params i s.consume = .next t := (exec_eq_execWith i _).symm.trans (e.symm.trans h)
    have hend := (execWith_sub_eq_blockEnd_iff (s := s.consume) hs hex).trans (endsBlock_iff_word hi)
    simpa [hw] using hend
  · exact absurd hb hs

/-- Settles O49. -/
theorem cursorChangesOnlyByReads : Obligations.CursorChangesOnlyByReads := fun s t h hne => by
  rw [step_eq_stepWith] at h
  rcases stepBy_cases params (execWith params) s with ⟨-, e⟩ | ⟨rest, -, e⟩ | ⟨rest, hm, e⟩ | ⟨words, w, h', rest, hm, e⟩ |
    ⟨bytes, w, h', rest, hm, e⟩ | ⟨rest, -, e⟩ | ⟨i, rest, -, e⟩
  · exact .inl (engineStep_cursor (e.symm.trans h) hne)
  · exact .inl (engineStep_cursor (s := s.setMoves rest) (e.symm.trans h) hne)
  · obtain rfl := Host.Outcome.next.inj (e.symm.trans h)
    exact .inr ⟨rfl, _, rest, hm, .inl rfl⟩
  · exact .inr ⟨startMove_cursor (e.symm.trans h) hne, _, rest, hm, .inr (.inl ⟨words, w, h', rfl⟩)⟩
  · exact .inr ⟨startMove_cursor (e.symm.trans h) hne, _, rest, hm, .inr (.inr ⟨bytes, w, h', rfl⟩)⟩
  · obtain rfl := Host.Outcome.next.inj (e.symm.trans h)
    exact absurd rfl hne
  · exact absurd (readImageMove_cursor (e.symm.trans h)) hne

end Sys2Proof.Machine
end

section
/-! PROOF. The invariants (spec 10_state.md R39 and what makes it inductive): each word, each engine step and each host operation keeps
`State.Inv`, for any parameters. -/

namespace Sys2Proof.Machine

variable {P : Params} {s t : State}

/-! ### The words the macroblock in flight has consumed, by sub-state -/

theorem wordsInFlight_mbStart (hs : s.sub = .mbStart) : wordsInFlight s = 0 := by simp [wordsInFlight, hs]

theorem wordsInFlight_expectDc (hp : s.phase = .decoding) (hs : s.sub = .expectDc) : wordsInFlight s = 2 * s.blk.val := by
  simp [wordsInFlight, hp, hs]

theorem wordsInFlight_expectAc (hp : s.phase = .decoding) (hs : s.sub = .expectAc) : wordsInFlight s = 2 * s.blk.val + 1 := by
  simp [wordsInFlight, hp, hs]

theorem wordsInFlight_blockEnd (hp : s.phase = .decoding) (hs : s.sub = .blockEnd) : wordsInFlight s = 2 * s.blk.val + 2 := by
  simp [wordsInFlight, hp, hs]

/-- A word read in its own context adds at most one word to those the macroblock is known to have consumed. -/
theorem wordsInFlight_execWith {i : Instr} (hp : s.phase = .decoding) (hi : i.context = s.sub) (e : execWith P i s = .next t) :
    wordsInFlight t ≤ wordsInFlight s + 1 := by
  rcases cases_of_execWith_eq_next e with ⟨rfl, rfl⟩ | ⟨q, amp, rfl, rfl⟩ | ⟨rfl, rfl⟩ | ⟨run, amp, k, hk, rfl, -, rfl⟩ |
    ⟨run, amp, rfl, -, rfl⟩
  · exact Nat.le_succ _
  · rw [wordsInFlight_expectDc hp hi.symm, wordsInFlight_expectAc (s := s.loadDc _ _) hp rfl, loadDc_blk]
  · rw [wordsInFlight_expectAc hp hi.symm, wordsInFlight_blockEnd (s := s.setSub .blockEnd) hp rfl, setSub_blk]
  · by_cases hend : k + 1 ≥ 64
    · rw [wordsInFlight_expectAc hp hi.symm, wordsInFlight_blockEnd (s := s.storeAc _ _ _) hp (if_pos hend), storeAc_blk]
    · rw [wordsInFlight_expectAc hp hi.symm, wordsInFlight_expectAc (s := s.storeAc _ _ _) hp ((if_neg hend).trans hi.symm), storeAc_blk]
      exact Nat.le_succ _
  · rw [wordsInFlight_expectAc hp hi.symm, wordsInFlight_blockEnd (s := s.overrun _) hp rfl, overrun_blk]

/-- A word that leaves the engine in EXPECT_AC leaves K inside the block (R39). -/
theorem k_range_execWith {i : Instr} (hi : i.context = s.sub) (h : s.sub = .expectAc → 1 ≤ s.k.toNat ∧ s.k.toNat ≤ 63)
    (e : execWith P i s = .next t) (ht : t.sub = .expectAc) : 1 ≤ t.k.toNat ∧ t.k.toNat ≤ 63 := by
  rcases cases_of_execWith_eq_next e with ⟨rfl, rfl⟩ | ⟨q, amp, rfl, rfl⟩ | ⟨rfl, rfl⟩ | ⟨run, amp, k, hk, rfl, -, rfl⟩ |
    ⟨run, amp, rfl, -, rfl⟩
  · exact h ht
  · exact (by decide : 1 ≤ (1#7).toNat ∧ (1#7).toNat ≤ 63)
  · cases ht
  · by_cases hend : k + 1 ≥ 64
    · rw [storeAc_sub, if_pos hend] at ht
      cases ht
    · rw [storeAc_k, BitVec.toNat_ofNat]
      omega
  · cases ht

/-! ### Steps inside a decode -/

/-- What no step inside a decode writes: the configuration, PHASE, CAUSE and IMAGE. -/
structure SameDecode (s t : State) : Prop where
  words : t.words = s.words
  w     : t.w = s.w
  h     : t.h = s.h
  phase : t.phase = s.phase
  cause : t.cause = s.cause
  image : t.image = s.image

/-- Inside a decode, the invariants of the next state come down to the clauses on CURSOR, NP, K and COEF. -/
theorem State.Inv.of_sameDecode (h : s.Inv P) (hp : s.phase = .decoding) (same : SameDecode s t) (hcursor : t.cursor ≤ s.n)
    (hnp : t.plist.length = t.np) (hused : 12 * t.np + wordsInFlight t ≤ t.cursor)
    (hk : t.sub = .expectAc → 1 ≤ t.k.toNat ∧ t.k.toNat ≤ 63) (hcoef : t.coef.InRange) : t.Inv P where
  cursor_le := by rw [State.n, same.words]; exact hcursor
  n_le := by rw [State.n, same.words]; exact h.n_le
  w_le := by rw [same.w]; exact h.w_le
  h_le := by rw [same.h]; exact h.h_le
  sizes_pos := fun _ => by rw [same.w, same.h]; exact h.sizes_pos (.inl hp)
  np_length := hnp
  words_used := hused
  k_range := fun _ => hk
  coef_range := hcoef
  done_cursor := fun hd => by rw [same.phase, hp] at hd; cases hd
  cause_fits := by rw [same.phase, same.cause]; exact h.cause_fits
  image_zero := fun _ => by rw [same.image]; exact h.image_zero hp
  image_wf := by rw [same.image]; exact h.image_wf
  image_in := by rw [same.image, same.w, same.h]; exact h.image_in

/-- A word read keeps the invariants. -/
theorem State.Inv.word {i : Instr} (h : s.Inv P) (hp : s.phase = .decoding) (hc : s.cursor < s.n) (hi : i.context = s.sub)
    (e : execWith P i s.consume = .next t) : t.Inv P := by
  have hflight : wordsInFlight t ≤ wordsInFlight s + 1 := wordsInFlight_execWith (s := s.consume) hp hi e
  have hk := k_range_execWith (s := s.consume) hi (h.k_range hp) e
  have hcoef := execWith_inRange (s := s.consume) h.coef_range e
  have hused := h.words_used
  obtain ⟨q, coef, k, sub, rfl⟩ := execWith_frame e
  refine h.of_sameDecode hp ⟨rfl, rfl, rfl, rfl, rfl, rfl⟩ hc h.np_length ?_ hk hcoef
  show 12 * s.np + _ ≤ s.cursor + 1
  omega

/-- The beginning of a macroblock attempt keeps the invariants. -/
theorem State.Inv.beginMacroblock (h : s.Inv P) (hp : s.phase = .decoding) : s.beginMacroblock.Inv P := by
  refine h.of_sameDecode hp ⟨rfl, rfl, rfl, rfl, rfl, rfl⟩ h.cursor_le h.np_length ?_ (nofun) h.coef_range
  rw [wordsInFlight_expectDc (s := s.beginMacroblock) hp rfl]
  exact (Nat.le_add_right _ _).trans h.words_used

/-- BLOCK_END keeps the invariants: the block's 2 words are counted by BLK, and the sixth block's 12 by NP (R33). -/
theorem State.Inv.blockEndStep (h : s.Inv P) (hp : s.phase = .decoding) (hs : s.sub = .blockEnd) : (blockEndStep P s).Inv P := by
  have hused := h.words_used
  rw [wordsInFlight_blockEnd hp hs] at hused
  rcases blockEndStep_cases P s with ⟨spat, crbuf, cbbuf, patch, b, -, hb, e⟩ | ⟨spat, crbuf, cbbuf, patch, h5, e⟩ <;> rw [e]
  · refine h.of_sameDecode hp ⟨rfl, rfl, rfl, rfl, rfl, rfl⟩ h.cursor_le h.np_length ?_ (nofun) h.coef_range
    rw [wordsInFlight_expectDc (s := State.nextBlock { s with spat := spat, crbuf := crbuf, cbbuf := cbbuf, patch := patch } b) hp rfl,
      nextBlock_blk, nextBlock_np, nextBlock_cursor, hb]
    exact hused
  · refine h.of_sameDecode hp ⟨rfl, rfl, rfl, rfl, rfl, rfl⟩ h.cursor_le ?_ ?_ (nofun) h.coef_range
    · simp [h.np_length]
    · rw [wordsInFlight_mbStart rfl, completeMacroblock_np, completeMacroblock_cursor]
      show 12 * (s.np + 1) + 0 ≤ s.cursor
      omega

/-- DONE entry keeps the invariants where no word is left (R181, R204). -/
theorem State.Inv.enterDone (h : s.Inv P) (hp : s.phase = .decoding) (hn : s.n ≤ s.cursor) {c : Cause} (hcause : c ≠ .invalidInputSize) :
    (State.enterDone { s with cause := c }).Inv P where
  cursor_le := h.cursor_le
  n_le := h.n_le
  w_le := h.w_le
  h_le := h.h_le
  sizes_pos := fun _ => h.sizes_pos (.inl hp)
  np_length := h.np_length
  words_used := (Nat.le_add_right _ _).trans h.words_used
  k_range := nofun
  coef_range := h.coef_range
  done_cursor := fun _ => Nat.le_antisymm h.cursor_le hn
  cause_fits := by simpa [causeFits] using hcause
  image_zero := nofun
  image_wf := wf_placeAll h.image_wf _ _ _ _
  image_in := fun c hc => (mem_placeAll hc).elim id (h.image_in c)

/-- Every engine step keeps the invariants. -/
theorem State.Inv.engineStep (h : s.Inv P) (e : engineStep P (execWith P) s = .next t) : t.Inv P := by
  rcases engineStep_cases P (execWith P) s with ⟨-, e'⟩ | ⟨hp, -, -, e'⟩ | ⟨hp, -, hn, e'⟩ | ⟨hp, -, hn, e'⟩ |
    ⟨w, i, hp, -, hc, -, hi, e'⟩ | ⟨hp, hs, e'⟩
  case inr.inr.inr.inr.inl => exact h.word hp hc (encode_of_decode hi).2.1 (e'.symm.trans e)
  all_goals obtain rfl := Host.Outcome.next.inj (e'.symm.trans e)
  · exact h
  · exact h.beginMacroblock hp
  · exact h.enterDone hp hn nofun
  · exact h.enterDone hp hn nofun
  · exact h.blockEndStep hp hs

/-! ### Host operations -/

/-- The invariants do not speak of the host's moves. -/
theorem State.Inv.setMoves (h : s.Inv P) (ms : List HostMove) : (s.setMoves ms).Inv P := { h with }

/-- The invariants do not speak of the reply. -/
theorem State.Inv.answer (h : s.Inv P) (r : HostReply) : (s.answer r).Inv P := { h with }

/-- The invariants hold after RESET, whatever the parameters. -/
theorem reset_inv (P : Params) : State.reset.Inv P where
  cursor_le := Nat.le_refl 0
  n_le := Nat.zero_le _
  w_le := Nat.zero_le _
  h_le := Nat.zero_le _
  sizes_pos := by rintro (h | h) <;> cases h
  np_length := rfl
  words_used := Nat.le_refl 0
  k_range := nofun
  coef_range := zero_inRange
  done_cursor := nofun
  cause_fits := rfl
  image_zero := nofun
  image_wf := ⟨List.Pairwise.nil, nofun⟩
  image_in := nofun

/-- A decode that begins within the limits begins in the invariants, whatever the past left but COEF (R180). -/
theorem State.Inv.initDecode (h : s.Inv P) {words : List Word} {w h' : Nat} (hn : words.length ≤ P.maxWords) (hw : w ≤ P.maxW)
    (hh : h' ≤ P.maxH) (hw0 : 0 < w) (hh0 : 0 < h') : (s.initDecode words w h').Inv P where
  cursor_le := Nat.zero_le _
  n_le := hn
  w_le := hw
  h_le := hh
  sizes_pos := fun _ => ⟨hw0, hh0⟩
  np_length := rfl
  words_used := Nat.le_refl 0
  k_range := nofun
  coef_range := h.coef_range
  done_cursor := nofun
  cause_fits := rfl
  image_zero := fun _ => rfl
  image_wf := ⟨List.Pairwise.nil, nofun⟩
  image_in := nofun

/-- A refused size changes PHASE and CAUSE alone, and ERROR asks nothing of the rest (R202, log 10). -/
theorem State.Inv.invalidInputSize (h : s.Inv P) : (takeException .invalidInputSize s).Inv P where
  cursor_le := h.cursor_le
  n_le := h.n_le
  w_le := h.w_le
  h_le := h.h_le
  sizes_pos := by rintro (h | h) <;> cases h
  np_length := h.np_length
  words_used := (Nat.le_add_right _ _).trans h.words_used
  k_range := nofun
  coef_range := h.coef_range
  done_cursor := nofun
  cause_fits := rfl
  image_zero := nofun
  image_wf := h.image_wf
  image_in := h.image_in

/-- START, in either form, keeps the invariants. -/
theorem State.Inv.startMove (h : s.Inv P) {words : List Word} {odd : Bool} {w h' : Int}
    (e : startMove P words odd w h' s = .next t) : t.Inv P := by
  rcases startMove_cases P words odd w h' s with ⟨-, e'⟩ | ⟨-, -, e'⟩ | ⟨-, -, -, -, -, e'⟩ | ⟨-, hn, hw, hh, hw0, hh0, -, e'⟩ <;>
    cases e'.symm.trans e
  · exact h.invalidInputSize
  · exact h.initDecode hn (by omega) (by omega) (by omega) (by omega)

/-- READ_IMAGE keeps the invariants. -/
theorem State.Inv.readImageMove (h : s.Inv P) {i : Nat} (e : readImageMove i s = .next t) : t.Inv P := by
  rcases readImageMove_cases i s with ⟨-, -, e'⟩ | ⟨-, -, e'⟩ | ⟨-, e'⟩ <;> cases e'.symm.trans e
  exact h.answer _

/-- Every step of any parameters keeps the invariants. -/
theorem State.Inv.stepWith (h : s.Inv P) (e : stepWith P s = .next t) : t.Inv P := by
  rcases stepBy_cases P (execWith P) s with ⟨-, e'⟩ | ⟨rest, -, e'⟩ | ⟨rest, -, e'⟩ | ⟨words, w, h', rest, -, e'⟩ |
    ⟨bytes, w, h', rest, -, e'⟩ | ⟨rest, -, e'⟩ | ⟨i, rest, -, e'⟩
  · exact h.engineStep (e'.symm.trans e)
  · exact (h.setMoves rest).engineStep (e'.symm.trans e)
  · obtain rfl := Host.Outcome.next.inj (e'.symm.trans e)
    exact (reset_inv P).setMoves rest
  · exact (h.setMoves rest).startMove (e'.symm.trans e)
  · exact (h.setMoves rest).startMove (e'.symm.trans e)
  · obtain rfl := Host.Outcome.next.inj (e'.symm.trans e)
    exact (h.setMoves rest).answer _
  · exact (h.setMoves rest).readImageMove (e'.symm.trans e)

/-- Settles O53: `State.Inv.stepWith` at the machine's own parameters. -/
theorem invariantsKept : Obligations.InvariantsKept := fun s _ h e =>
  h.stepWith ((step_eq_stepWith s).symm.trans e)

end Sys2Proof.Machine
end

section
/-! PROOF. Configuration (spec 40_block_decoder.md R103 to R105; 60_exceptions.md R208): the lists that are tables and zigzag
permutations, as the lists of integers the ROM then holds. -/

namespace Sys2Proof.Machine

/-! ### A checked list as a vector: what `quantTable?` and `zigzag?` share -/

/-- 64 integers in 0..hi as a vector, through g. -/
def vectorOfRange? {α : Type} (hi : Int) (g : Int → α) (xs : List Int) : Option (Vector α 64) :=
  if h : xs.length = 64 then
    if xs.all fun x => 0 ≤ x ∧ x ≤ hi then some ⟨(xs.map g).toArray, by simp [h]⟩ else none
  else none

theorem quantTable?_eq_vectorOfRange? : quantTable? = vectorOfRange? 255 (BitVec.ofInt 8) := rfl

theorem zigzag?_eq_vectorOfRange? : zigzag? = vectorOfRange? 63 fun x => Fin.ofNat 64 x.toNat := rfl

theorem vectorOfRange?_eq_some_iff {α : Type} {hi : Int} {g : Int → α} {xs : List Int} {v : Vector α 64} :
    vectorOfRange? hi g xs = some v ↔ xs.length = 64 ∧ (∀ x ∈ xs, 0 ≤ x ∧ x ≤ hi) ∧ v.toList = xs.map g := by
  unfold vectorOfRange?
  split
  next hlen =>
    split
    next hall =>
      have hrange : ∀ x ∈ xs, 0 ≤ x ∧ x ≤ hi := by simpa using hall
      rw [Option.some_inj, ← Vector.toList_inj, eq_comm]
      exact ⟨fun h => ⟨hlen, hrange, h⟩, fun h => h.2.2⟩
    next hall => exact iff_of_false nofun fun h => hall (by simpa using h.2.1)
  next hlen => exact iff_of_false nofun fun h => hlen h.1

/-- Which lists are accepted does not depend on g. -/
theorem exists_vectorOfRange?_iff {α : Type} {hi : Int} {g : Int → α} {xs : List Int} :
    (∃ v, vectorOfRange? hi g xs = some v) ↔ xs.length = 64 ∧ ∀ x ∈ xs, 0 ≤ x ∧ x ≤ hi := by
  constructor
  · rintro ⟨v, hv⟩
    obtain ⟨hlen, hrange, -⟩ := vectorOfRange?_eq_some_iff.1 hv
    exact ⟨hlen, hrange⟩
  · rintro ⟨hlen, hrange⟩
    exact ⟨⟨(xs.map g).toArray, by simp [hlen]⟩, vectorOfRange?_eq_some_iff.2 ⟨hlen, hrange, rfl⟩⟩

/-- Where f undoes g on the range, the vector holds the integers it was made from. -/
theorem vectorOfRange?_toList {α : Type} {hi : Int} {g : Int → α} {f : α → Int} (hfg : ∀ x, 0 ≤ x → x ≤ hi → f (g x) = x)
    {xs : List Int} {v : Vector α 64} (h : vectorOfRange? hi g xs = some v) : xs = v.toList.map f := by
  obtain ⟨-, hrange, hv⟩ := vectorOfRange?_eq_some_iff.1 h
  rw [hv, List.map_map]
  exact (List.map_id xs).symm.trans (List.map_congr_left fun x hx => (hfg x (hrange x hx).1 (hrange x hx).2).symm)

/-! ### The tables and ZZ -/

/-- The lists a quantization table is made from. -/
theorem exists_quantTable?_iff {xs : List Int} :
    (∃ v, quantTable? xs = some v) ↔ xs.length = 64 ∧ ∀ x ∈ xs, 0 ≤ x ∧ x ≤ 255 := by
  rw [quantTable?_eq_vectorOfRange?, exists_vectorOfRange?_iff]

theorem quantTable?_toList {xs : List Int} {v : Vector Byte 64} (h : quantTable? xs = some v) :
    xs = v.toList.map fun b => (b.toNat : Int) := by
  rw [quantTable?_eq_vectorOfRange?] at h
  refine vectorOfRange?_toList (fun x h0 h255 => ?_) h
  rw [BitVec.toNat_ofInt]
  omega

/-- The lists a candidate ZZ is made from. -/
theorem exists_zigzag?_iff {xs : List Int} : (∃ z, zigzag? xs = some z) ↔ xs.length = 64 ∧ ∀ x ∈ xs, 0 ≤ x ∧ x ≤ 63 := by
  rw [zigzag?_eq_vectorOfRange?, exists_vectorOfRange?_iff]

theorem zigzag?_toList {xs : List Int} {z : Vector (Fin 64) 64} (h : zigzag? xs = some z) :
    xs = z.toList.map fun p => (p.val : Int) := by
  rw [zigzag?_eq_vectorOfRange?] at h
  refine vectorOfRange?_toList (fun x h0 h63 => ?_) h
  rw [Fin.val_ofNat]
  omega

/-- A vector whose index is one to one lists no element twice. -/
theorem nodup_toList_iff {α : Type} {n : Nat} (v : Vector α n) : v.toList.Nodup ↔ ∀ i j : Fin n, v[i] = v[j] → i = j := by
  have e : v.toList = List.ofFn fun i : Fin n => v[i] := List.ext_getElem (by simp) (by simp)
  rw [e, List.nodup_ofFn]
  rfl

/-- R105's two constraints on ZZ, on the list of its integers. -/
theorem zigzagOk_iff (T : Tables) :
    T.ZigzagOk ↔ (T.zz.toList.map fun p => (p.val : Int)).Nodup ∧ (T.zz.toList.map fun p => (p.val : Int))[0]? = some 0 := by
  have hinj : Function.Injective fun p : Fin 64 => (p.val : Int) := fun i j h => Fin.ext (Int.ofNat.inj h)
  have hzero : (T.zz.toList.map fun p => (p.val : Int))[0]? = some 0 ↔ T.zz[0] = 0 := by
    rw [List.getElem?_map, Vector.getElem?_toList, Vector.getElem?_eq_getElem (by omega), Option.map_some, Option.some_inj]
    exact hinj.eq_iff (b := 0)
  rw [List.nodup_map_iff hinj, nodup_toList_iff, hzero, and_comm]

/-- Configuration accepts exactly the tables and permutations its three parts accept, where ZZ meets R105. -/
theorem configure_eq_ok_iff {qtY qtC zz : List Int} {T : Tables} :
    configure qtY qtC zz = .ok T ↔
      quantTable? qtY = some T.qtY ∧ quantTable? qtC = some T.qtC ∧ zigzag? zz = some T.zz ∧ T.ZigzagOk := by
  obtain ⟨y, c, z⟩ := T
  unfold configure
  split
  next y' c' z' hy hc hz =>
    split
    next hok => grind
    next hok => grind
  next hy hc hz => simp [hz]
  next h => grind

/-- Settles O7. -/
theorem configurationChecked : Obligations.ConfigurationChecked := by
  refine ⟨fun qtY qtC zz => ⟨⟨?_, ?_⟩, ?_⟩, ?_⟩
  · rintro ⟨T, hT⟩
    obtain ⟨hy, hc, hz, hok⟩ := configure_eq_ok_iff.1 hT
    refine ⟨exists_quantTable?_iff.1 ⟨_, hy⟩, exists_quantTable?_iff.1 ⟨_, hc⟩, exists_zigzag?_iff.1 ⟨_, hz⟩, ?_⟩
    rw [zigzag?_toList hz]
    exact (zigzagOk_iff T).1 hok
  · rintro ⟨hy, hc, hz, hok⟩
    obtain ⟨y, ey⟩ := exists_quantTable?_iff.2 hy
    obtain ⟨c, ec⟩ := exists_quantTable?_iff.2 hc
    obtain ⟨z, ez⟩ := exists_zigzag?_iff.2 hz
    rw [zigzag?_toList ez] at hok
    exact ⟨⟨y, c, z⟩, configure_eq_ok_iff.2 ⟨ey, ec, ez, (zigzagOk_iff ⟨y, c, z⟩).2 hok⟩⟩
  · intro T hT p
    obtain ⟨hy, hc, hz, -⟩ := configure_eq_ok_iff.1 hT
    rw [quantTable?_toList hy, quantTable?_toList hc, zigzag?_toList hz]
    simp
  · refine ⟨by simp, fun x hx => ?_, (zigzagOk_iff ⟨.replicate 64 0, .replicate 64 0, defaultZigzag⟩).1 (defaultZigzag_ok _ _)⟩
    obtain ⟨p, -, rfl⟩ := List.mem_map.1 hx
    omega

end Sys2Proof.Machine
end

section
/-! PROOF. Termination (spec 43_macroblock_and_image_assembly.md R188): a measure that bounds the engine steps a decode still takes, and
falls at each of them. -/

namespace Sys2Proof.Machine

/-- What each sub-state may add to two steps for every word left. In EXPECT_DC the last step enters DONE; each of the other sub-states is
its predecessor's cost and one step more, a word read paying two of them. -/
def stepCost : Sub → Nat
  | .expectDc => 1
  | .expectAc => 2
  | .mbStart => 2
  | .blockEnd => 3

/-- A bound on the engine steps a decode still takes to DONE. -/
def stepsLeft (s : State) : Nat := 2 * (s.n - s.cursor) + stepCost s.sub

theorem stepsLeft_pos (s : State) : 1 ≤ stepsLeft s := by
  have hcost : 1 ≤ stepCost s.sub := by cases s.sub <;> decide
  exact hcost.trans (Nat.le_add_left _ _)

/-- A word read in its own context adds at most one to the cost of the sub-state. -/
theorem stepCost_execWith {P : Params} {i : Instr} {s t : State} (hi : i.context = s.sub) (e : execWith P i s = .next t) :
    stepCost t.sub ≤ stepCost s.sub + 1 := by
  rcases cases_of_execWith_eq_next e with ⟨-, rfl⟩ | ⟨q, amp, rfl, rfl⟩ | ⟨rfl, rfl⟩ | ⟨run, amp, k, hk, rfl, -, rfl⟩ |
    ⟨run, amp, rfl, -, rfl⟩
  · exact Nat.le_succ _
  · exact hi ▸ Nat.le_refl (stepCost .expectAc)
  · exact hi ▸ Nat.le_refl (stepCost .blockEnd)
  · rw [storeAc_sub]
    split
    · exact hi ▸ Nat.le_refl (stepCost .blockEnd)
    · exact Nat.le_succ _
  · exact hi ▸ Nat.le_refl (stepCost .blockEnd)

/-- Inside a decode each engine step enters DONE, or leaves the decode fewer steps to go. -/
theorem engineStep_progress (P : Params) {s : State} (hp : s.phase = .decoding) :
    ∃ t, engineStep P (execWith P) s = .next t ∧
      (t.phase = .done ∨ t.phase = .decoding ∧ t.moves = s.moves ∧ stepsLeft t < stepsLeft s) := by
  rcases engineStep_cases P (execWith P) s with ⟨hn, -⟩ | ⟨-, hs, -, e⟩ | ⟨-, -, -, e⟩ | ⟨-, -, -, e⟩ | ⟨w, i, -, -, hc, -, hi, e⟩ |
    ⟨-, hs, e⟩
  · exact absurd hp hn
  · refine ⟨_, e, .inr ⟨hp, rfl, ?_⟩⟩
    simp [stepsLeft, State.n, hs, stepCost]
  · exact ⟨_, e, .inl rfl⟩
  · exact ⟨_, e, .inl rfl⟩
  · obtain ⟨t, ht, -⟩ := execWith_cases P i s.consume
    have hcost := stepCost_execWith (s := s.consume) (encode_of_decode hi).2.1 ht
    obtain ⟨q, coef, k, sub, rfl⟩ := execWith_frame ht
    refine ⟨_, e.trans ht, .inr ⟨hp, rfl, ?_⟩⟩
    change stepCost sub ≤ stepCost s.sub + 1 at hcost
    change 2 * (s.n - (s.cursor + 1)) + stepCost sub < 2 * (s.n - s.cursor) + stepCost s.sub
    omega
  · refine ⟨_, e, .inr ?_⟩
    rcases blockEndStep_cases P s with ⟨_, _, _, _, b, -, -, e'⟩ | ⟨_, _, _, _, -, e'⟩ <;> rw [e'] <;> refine ⟨hp, rfl, ?_⟩ <;>
      simp [stepsLeft, State.n, hs, stepCost]

/-- One step of the run, where the machine answers one. -/
theorem run_succ_of_step {s t : State} (k : Nat) (h : step s = .next t) :
    Host.Core.run Sys2Proof.core (k + 1) s = Host.Core.run Sys2Proof.core k t := by
  have hcore : Sys2Proof.core.step s = .next t := h
  simp only [Host.Core.run, hcore]

/-- A decode with no host move pending reaches DONE within its bound. -/
theorem run_reaches_done {s : State} (hp : s.phase = .decoding) (hm : s.moves = []) :
    ∃ k t, k ≤ stepsLeft s ∧ Host.Core.run Sys2Proof.core k s = .next t ∧ t.phase = .done := by
  induction hn : stepsLeft s using Nat.strong_induction_on generalizing s with
  | _ n ih =>
    obtain ⟨t, ht, hcase⟩ := engineStep_progress params hp
    have hstep : step s = .next t := by
      rw [step_eq_stepWith]
      simpa only [stepWith, stepBy, hm] using ht
    rcases hcase with hdone | ⟨htp, htm, hlt⟩
    · exact ⟨1, t, hn ▸ stepsLeft_pos s, (run_succ_of_step 0 hstep).trans rfl, hdone⟩
    · obtain ⟨k, u, hk, hrun, hu⟩ := ih (stepsLeft t) (by omega) htp (htm.trans hm) rfl
      exact ⟨k + 1, u, by omega, (run_succ_of_step k hstep).trans hrun, hu⟩

/-- Settles O55: the decode that START begins has `stepsLeft` 2N + 2. -/
theorem everyDecodeTerminates : Obligations.EveryDecodeTerminates := fun s words w h hp hm hn hw0 hw hh0 hh => by
  have hstep : step s = .next ((s.setMoves []).initDecode words w.toNat h.toNat) := by
    have hmove : step s = startMove params words false w h (s.setMoves []) := by simp only [step, stepBy, hm, hostMove]
    rcases startMove_cases params words false w h (s.setMoves []) with ⟨hd, -⟩ | ⟨-, hlim, -⟩ | ⟨-, -, -, -, hbad, -⟩ |
      ⟨-, -, -, -, -, -, -, e⟩
    · exact absurd hd hp
    · omega
    · simp only [Bool.false_eq_true, or_false] at hbad
      omega
    · exact hmove.trans e
  obtain ⟨k, t, hk, hrun, ht⟩ := run_reaches_done (s := (s.setMoves []).initDecode words w.toNat h.toNat) rfl rfl
  exact ⟨k, t, hk, (run_succ_of_step k hstep).trans hrun, ht⟩

end Sys2Proof.Machine
end

section
/-! PROOF. The inverse transform (spec 41_inverse_transform.md R144 to R148; R150; 10_state.md R35): the whole next state of BLOCK_END, the
size of the reference transform and of what admissible parameters make of it, and IDCT_DEFAULT as one rounding of the reference. -/

namespace Sys2Proof.Machine

/-! ### BLOCK_END's next state (R140, R183 to R185) -/

/-- The block advance from a state with other buffers: BLK, SUB and NP become what they become without them, and PLIST takes the patch. -/
theorem advanceBlock_withBuffers (s : State) (spat crbuf cbbuf : Block) (patch : Patch) :
    advanceBlock { s with spat := spat, crbuf := crbuf, cbbuf := cbbuf, patch := patch } =
      { s with spat := spat, crbuf := crbuf, cbbuf := cbbuf, patch := patch,
               blk := (advanceBlock s).blk, sub := (advanceBlock s).sub, np := (advanceBlock s).np,
               plist := if s.blk.val < 5 then s.plist else s.plist ++ [patch] } := by
  by_cases h5 : s.blk.val < 5 <;> simp only [advanceBlock, h5] <;> rfl

/-- BLOCK_END and what each field of its next state is computed from: SPAT, the one buffer the block goes to, and the block advance, which
reads nothing but BLK, NP, PLIST and the finished patch. -/
theorem blockEndStep_eq (P : Params) (s : State) :
    blockEndStep P s =
      { s with spat := P.idct s.np s.coef,
               crbuf := if s.blk.val = 0 then P.idct s.np s.coef else s.crbuf,
               cbbuf := if s.blk.val = 1 then P.idct s.np s.coef else s.cbbuf,
               patch := if s.blk.val < 2 then s.patch else (blockEndStep P s).patch,
               blk := (advanceBlock s).blk, sub := (advanceBlock s).sub, np := (advanceBlock s).np,
               plist := if s.blk.val < 5 then s.plist else s.plist ++ [(blockEndStep P s).patch] } := by
  rcases routeBlock_cases P { s with spat := P.idct s.np s.coef } with ⟨hb, e⟩ | ⟨hb, e⟩ | ⟨qd, hb, e⟩ <;>
    simp only at hb <;> rw [blockEndStep, e, advanceBlock_withBuffers s] <;> simp [hb]

/-- SPAT after BLOCK_END is the transformed block (R140, log 15). -/
@[simp] theorem blockEndStep_spat (P : Params) (s : State) : (blockEndStep P s).spat = P.idct s.np s.coef := by
  rw [blockEndStep_eq]

/-- NP is counted by the sixth block alone (R184). -/
theorem blockEndStep_np_of_lt (P : Params) {s : State} (h : s.blk.val < 5) : (blockEndStep P s).np = s.np := by
  rw [blockEndStep_eq]
  simp [advanceBlock, h]

/-- PATCH after BLOCK_END of a Y block is its quadrant converted (R183). -/
theorem blockEndStep_patch (P : Params) {s : State} {qd : Fin 4} (h : s.blk.val = qd.val + 2) :
    (blockEndStep P s).patch = convert P.colorToInt qd (P.idct s.np s.coef) s.cbbuf s.crbuf s.patch := by
  rw [blockEndStep, advanceBlock_frame]
  rcases routeBlock_cases P { s with spat := P.idct s.np s.coef } with ⟨hb, -⟩ | ⟨hb, -⟩ | ⟨qd', hb, e⟩ <;> simp only at hb
  · omega
  · omega
  · obtain rfl : qd' = qd := Fin.ext (by omega)
    rw [e]

/-- BLOCK_END under two parameters differs in SPAT and in the one buffer computed from it (R241). -/
theorem blockEndStep_eq_of_other (P P' : Params) (s : State) :
    blockEndStep P' s =
      { blockEndStep P s with
          spat := (blockEndStep P' s).spat,
          crbuf := if s.blk.val = 0 then (blockEndStep P' s).spat else s.crbuf,
          cbbuf := if s.blk.val = 1 then (blockEndStep P' s).spat else s.cbbuf,
          patch := if s.blk.val < 2 then s.patch else (blockEndStep P' s).patch,
          plist := if s.blk.val < 5 then s.plist else s.plist ++ [(blockEndStep P' s).patch] } := by
  rw [blockEndStep_spat, blockEndStep_eq P s]
  exact blockEndStep_eq P' s

/-! ### The size of the reference transform (R148) -/

/-- A row of R151's basis table sums to at most 11 in absolute value. -/
theorem sum_abs_dctBasis_le (n : Fin 8) : ∑ u, |dctBasis .unitDc n u| ≤ 11 := by
  have hs : √2 ≤ 10 / 7 := Real.sqrt_le_iff.2 ⟨by norm_num, by norm_num⟩
  have hweight : ∀ u, |dctBasis .unitDc n u| ≤ |dctWeight .unitDc u| := fun u => by
    rw [dctBasis, abs_mul]
    exact mul_le_of_le_one_right (abs_nonneg _) (Real.abs_cos_le_one _)
  calc ∑ u, |dctBasis .unitDc n u| ≤ ∑ u, |dctWeight .unitDc u| := Finset.sum_le_sum fun u _ => hweight u
    _ = 1 + 7 * √2 := by
        rw [Fin.sum_univ_succ]
        simp [dctWeight, Fin.succ_ne_zero]
    _ ≤ 11 := by linarith

theorem abs_sRef_unitDc_le {F : Block} (hF : F.InRange) (p : Fin 64) : |sRef .unitDc F p| ≤ 16384 * (11 * 11) := by
  have hcoef : ∀ q : Fin 64, |(F[q] : ℝ)| ≤ 16384 := fun q => by
    obtain ⟨hlo, hhi⟩ := hF q
    exact_mod_cast abs_le.2 ⟨hlo, hhi.trans (by norm_num)⟩
  calc |sRef .unitDc F p|
      ≤ ∑ v, ∑ u, |(F[natPos v u] : ℝ) * dctBasis .unitDc (rowOf p) v * dctBasis .unitDc (colOf p) u| :=
        (Finset.abs_sum_le_sum_abs _ _).trans (Finset.sum_le_sum fun v _ => Finset.abs_sum_le_sum_abs _ _)
    _ ≤ ∑ v, ∑ u, 16384 * (|dctBasis .unitDc (rowOf p) v| * |dctBasis .unitDc (colOf p) u|) := by
        refine Finset.sum_le_sum fun v _ => Finset.sum_le_sum fun u _ => ?_
        rw [abs_mul, abs_mul, mul_assoc]
        exact mul_le_mul_of_nonneg_right (hcoef _) (by positivity)
    _ = 16384 * ((∑ v, |dctBasis .unitDc (rowOf p) v|) * ∑ u, |dctBasis .unitDc (colOf p) u|) := by
        rw [Finset.sum_mul_sum, Finset.mul_sum]
        simp only [Finset.mul_sum]
    _ ≤ 16384 * (11 * 11) := by
        gcongr <;> exact sum_abs_dctBasis_le _

theorem abs_sRef_le (norm : IdctNorm) {F : Block} (hF : F.InRange) (p : Fin 64) : |sRef norm F p| ≤ 16384 * (11 * 11) := by
  have hunit := abs_sRef_unitDc_le hF p
  cases norm with
  | unitDc => exact hunit
  | jpeg =>
    rw [sRef_jpeg, abs_div, abs_of_pos (by norm_num : (0 : ℝ) < 8)]
    exact (div_le_self (abs_nonneg _) (by norm_num)).trans hunit

/-- A conforming transform answers in R35's 22 bits (R148). -/
theorem fits22_of_conforms {norm : IdctNorm} {idct : Block → Block} (h : IdctConforms norm idct) {F : Block} (hF : F.InRange) :
    fits22 (idct F) := fun p => by
  have habs : |((idct F)[p] : ℝ)| ≤ 1 + 16384 * (11 * 11) := by
    have htri := abs_add_le (((idct F)[p] : ℝ) - sRef norm F p) (sRef norm F p)
    rw [sub_add_cancel] at htri
    exact htri.trans (add_le_add (h.within_one F hF p) (abs_sRef_le norm hF p))
  have hint : |(idct F)[p]| ≤ 1 + 16384 * (11 * 11) := by exact_mod_cast habs
  obtain ⟨hlo, hhi⟩ := abs_le.1 hint
  omega

/-- Two conforming transforms differ by at most 2 (R241). -/
theorem abs_sub_le_two_of_conforms {norm : IdctNorm} {f g : Block → Block} (hf : IdctConforms norm f) (hg : IdctConforms norm g)
    {F : Block} (hF : F.InRange) (p : Fin 64) : |(f F)[p] - (g F)[p]| ≤ 2 := by
  have hreal : |((f F)[p] : ℝ) - (g F)[p]| ≤ 2 := by
    have hg' := hg.within_one F hF p
    rw [abs_sub_comm] at hg'
    calc _ ≤ _ := abs_sub_le _ (sRef norm F p) _
      _ ≤ 1 + 1 := add_le_add (hf.within_one F hF p) hg'
      _ = 2 := by norm_num
  exact_mod_cast hreal

/-- Admissibility asks R144 and R145 of each macroblock's transform by itself (R241). -/
theorem admissible_withIdct {P : Params} (hP : P.Admissible) {f : Nat → Block → Block} (hf : ∀ n, IdctConforms P.norm (f n)) :
    ({ P with idct := f } : Params).Admissible :=
  { hP with idct_conforms := hf }

/-! ### The spatial buffers through a step (R35) -/

/-- A step that keeps the three buffers keeps their bounds. -/
theorem State.SpatialFits.of_eq {s t : State} (h : s.SpatialFits) (hspat : t.spat = s.spat) (hcr : t.crbuf = s.crbuf)
    (hcb : t.cbbuf = s.cbbuf) : t.SpatialFits :=
  ⟨by rw [hspat]; exact h.spat, by rw [hcr]; exact h.crbuf, by rw [hcb]; exact h.cbbuf⟩

theorem zero_fits22 : fits22 Block.zero := fun p => by simp

theorem reset_spatialFits : State.reset.SpatialFits := ⟨zero_fits22, zero_fits22, zero_fits22⟩

/-- BLOCK_END is the one step of the engine that writes the buffers, and it writes what the transform gave. -/
theorem State.SpatialFits.blockEndStep {P : Params} {s : State} (h : s.SpatialFits) (hP : P.Admissible) (hF : s.coef.InRange) :
    (blockEndStep P s).SpatialFits := by
  have hidct : fits22 (P.idct s.np s.coef) := fits22_of_conforms (hP.idct_conforms s.np) hF
  rw [blockEndStep_eq]
  refine ⟨hidct, ?_, ?_⟩ <;> dsimp only <;> split
  · exact hidct
  · exact h.crbuf
  · exact hidct
  · exact h.cbbuf

theorem State.SpatialFits.engineStep {P : Params} {s t : State} (h : s.SpatialFits) (hP : P.Admissible) (hF : s.coef.InRange)
    (e : engineStep P (execWith P) s = .next t) : t.SpatialFits := by
  rcases engineStep_cases P (execWith P) s with ⟨-, e'⟩ | ⟨-, -, -, e'⟩ | ⟨-, -, -, e'⟩ | ⟨-, -, -, e'⟩ |
    ⟨w, i, -, -, -, -, -, e'⟩ | ⟨-, -, e'⟩
  case inr.inr.inr.inr.inl =>
    obtain ⟨q, coef, k, sub, rfl⟩ := execWith_frame (e'.symm.trans e)
    exact h.of_eq rfl rfl rfl
  all_goals obtain rfl := Host.Outcome.next.inj (e'.symm.trans e)
  · exact h
  · exact h.of_eq rfl rfl rfl
  · exact h.of_eq rfl rfl rfl
  · exact h.of_eq rfl rfl rfl
  · exact h.blockEndStep hP hF

theorem State.SpatialFits.startMove {P : Params} {s t : State} (h : s.SpatialFits) {words : List Word} {odd : Bool} {w h' : Int}
    (e : startMove P words odd w h' s = .next t) : t.SpatialFits := by
  rcases startMove_cases P words odd w h' s with ⟨-, e'⟩ | ⟨-, -, e'⟩ | ⟨-, -, -, -, -, e'⟩ | ⟨-, -, -, -, -, -, -, e'⟩ <;>
    cases e'.symm.trans e
  · exact h.of_eq rfl rfl rfl
  · exact h.of_eq rfl rfl rfl

theorem State.SpatialFits.readImageMove {s t : State} (h : s.SpatialFits) {i : Nat} (e : readImageMove i s = .next t) :
    t.SpatialFits := by
  rcases readImageMove_cases i s with ⟨-, -, e'⟩ | ⟨-, -, e'⟩ | ⟨-, e'⟩ <;> cases e'.symm.trans e
  exact h.of_eq rfl rfl rfl

/-- Every step of any admissible parameters keeps the buffers within 22 bits. -/
theorem State.SpatialFits.stepWith {P : Params} {s t : State} (h : s.SpatialFits) (hP : P.Admissible) (hF : s.coef.InRange)
    (e : stepWith P s = .next t) : t.SpatialFits := by
  have hmoves : ∀ rest, (s.setMoves rest).SpatialFits := fun rest => h.of_eq rfl rfl rfl
  rcases stepBy_cases P (execWith P) s with ⟨-, e'⟩ | ⟨rest, -, e'⟩ | ⟨rest, -, e'⟩ | ⟨words, w, h', rest, -, e'⟩ |
    ⟨bytes, w, h', rest, -, e'⟩ | ⟨rest, -, e'⟩ | ⟨i, rest, -, e'⟩
  · exact h.engineStep hP hF (e'.symm.trans e)
  · exact (hmoves rest).engineStep hP hF (e'.symm.trans e)
  · obtain rfl := Host.Outcome.next.inj (e'.symm.trans e)
    exact reset_spatialFits.of_eq rfl rfl rfl
  · exact (hmoves rest).startMove (e'.symm.trans e)
  · exact (hmoves rest).startMove (e'.symm.trans e)
  · obtain rfl := Host.Outcome.next.inj (e'.symm.trans e)
    exact h.of_eq rfl rfl rfl
  · exact (hmoves rest).readImageMove (e'.symm.trans e)

/-! ### IDCT_DEFAULT (R146) -/

/-- On a DC-only block the reference is F[0] at every position, under UNIT_DC (R145). -/
theorem sRef_unitDc_of_dcOnly {F : Block} (hF : F.DcOnly) (p : Fin 64) : sRef .unitDc F p = F[0] := by
  have hbasis : ∀ n, dctBasis .unitDc n 0 = 1 := fun n => by simp [dctBasis, dctWeight]
  have hzero : ∀ v u : Fin 8, ¬(v = 0 ∧ u = 0) → F[natPos v u] = 0 := fun v u hne => by
    refine hF _ fun hp => hne ?_
    have hval : v.val * 8 + u.val = 0 := congrArg Fin.val hp
    constructor <;> ext <;> simp <;> omega
  rw [sRef, Finset.sum_eq_single 0, Finset.sum_eq_single 0]
  · rw [hbasis, hbasis, mul_one, mul_one]
    rfl
  · intro u _ hu
    simp [hzero 0 u fun h => hu h.2]
  · simp
  · intro v _ hv
    exact Finset.sum_eq_zero fun u _ => by simp [hzero v u fun h => hv h.1]
  · simp

theorem idctDefault_of_dcOnly (norm : IdctNorm) {F : Block} (hF : F.DcOnly) (p : Fin 64) : idctDefault norm F p = F[0] := if_pos hF

/-- Under UNIT_DC the two arms of R146 are one rounding of the reference. -/
theorem idctDefault_unitDc_eq_floor (F : Block) (p : Fin 64) : idctDefault .unitDc F p = ⌊sRef .unitDc F p + 1 / 2⌋ := by
  by_cases hF : F.DcOnly
  · rw [idctDefault_of_dcOnly .unitDc hF, sRef_unitDc_of_dcOnly hF, Int.floor_intCast_add]
    norm_num
  · exact if_neg hF

theorem abs_idctDefault_sub_sRef_le (F : Block) (p : Fin 64) : |(idctDefault .unitDc F p : ℝ) - sRef .unitDc F p| ≤ 1 / 2 := by
  rw [idctDefault_unitDc_eq_floor, abs_le]
  have hle := Int.floor_le (sRef .unitDc F p + 1 / 2)
  have hlt := Int.lt_floor_add_one (sRef .unitDc F p + 1 / 2)
  constructor <;> linarith

theorem idctDefault_conforms_unitDc : IdctConforms .unitDc fun F => Vector.ofFn (idctDefault .unitDc F) where
  within_one F _ p := by
    simp only [Fin.getElem_fin, Vector.getElem_ofFn]
    exact (abs_idctDefault_sub_sRef_le F p).trans (by norm_num)
  dc_only_unit _ F hF p := by simp only [Fin.getElem_fin, Vector.getElem_ofFn, idctDefault_of_dcOnly .unitDc hF]
  dc_only_jpeg h := nomatch h

/-- The DC-only block with value v. -/
def dcBlock (v : Int) : Block := Block.zero.set 0 v

theorem dcBlock_dcOnly (v : Int) : (dcBlock v).DcOnly := fun p hp =>
  (set_getElem Block.zero 0 p v).trans (by simp [hp])

theorem dcBlock_inRange {v : Int} (hv : -16384 ≤ v ∧ v ≤ 16383) : (dcBlock v).InRange := set_inRange zero_inRange 0 hv

@[simp] theorem dcBlock_zero (v : Int) : (dcBlock v)[0] = v := Vector.getElem_set_self _

/-- Under JPEG the DC-only arm F[0] is eight times the reference: 8 for 1 (log 26). -/
theorem idctDefault_not_conforms_jpeg : ¬IdctConforms .jpeg fun F => Vector.ofFn (idctDefault .jpeg F) := fun h => by
  have hone := h.within_one (dcBlock 8) (dcBlock_inRange (by decide)) 0
  have hdc := dcBlock_dcOnly 8
  simp only [Fin.getElem_fin, Vector.getElem_ofFn] at hone
  rw [idctDefault_of_dcOnly .jpeg hdc, sRef_jpeg, sRef_unitDc_of_dcOnly hdc, dcBlock_zero] at hone
  norm_num at hone

/-! ### The obligations -/

/-- Settles O37: R144 of the parameters' transform, read in SPAT. -/
theorem transformWithinOne : Obligations.TransformWithinOne :=
  ⟨step_eq_stepWith, params_admissible, fun P s hP hF hp hs hm =>
    ⟨blockEndStep P s, stepWith_blockEnd P hp hs hm, fun p => by
      rw [blockEndStep_spat]
      exact (hP.idct_conforms s.np).within_one s.coef hF p⟩⟩

/-- Settles O39: `State.SpatialFits.stepWith` at the machine's own parameters. -/
theorem spatialBuffersFit : Obligations.SpatialBuffersFit := fun s _ hF h e =>
  h.stepWith params_admissible hF ((step_eq_stepWith s).symm.trans e)

/-- Settles O57: R144 of both transforms at the block's COEF, and the fields BLOCK_END computes from SPAT. -/
theorem factorisationsMayMix : Obligations.FactorisationsMayMix := fun P f hP hf => by
  refine ⟨admissible_withIdct hP hf, fun s hF hp hs hm => ⟨blockEndStep P s, blockEndStep { P with idct := f } s,
    stepWith_blockEnd P hp hs hm, stepWith_blockEnd _ hp hs hm, blockEndStep_spat _ s, fun p => ?_, fun qd hqd => ?_,
    blockEndStep_eq_of_other P _ s⟩⟩
  · rw [blockEndStep_spat, blockEndStep_spat]
    exact abs_sub_le_two_of_conforms (hP.idct_conforms s.np) (hf s.np) hF p
  · rw [blockEndStep_spat]
    exact blockEndStep_patch _ hqd

/-- Settles O58: SPAT is a function of NP and COEF, and only the sixth block counts NP. -/
theorem sameTransformInMacroblock : Obligations.SameTransformInMacroblock := fun s s' hp hs hm hp' hs' hm' hnp hcoef =>
  ⟨blockEndStep params s, blockEndStep params s', step_blockEnd hp hs hm, step_blockEnd hp' hs' hm',
    by rw [blockEndStep_spat, blockEndStep_spat, hnp, hcoef], blockEndStep_np_of_lt params⟩

/-- Settles O59: the reference is F[0] on a DC-only block under UNIT_DC, and an eighth of it under JPEG. -/
theorem defaultTransformConforms : Obligations.DefaultTransformConforms :=
  ⟨fun F p => ⟨fun hF => idctDefault_of_dcOnly .unitDc hF p, idctDefault_unitDc_eq_floor F p, abs_idctDefault_sub_sRef_le F p⟩,
    fun qtY qtC _ _ _ hpos hlt hw hh =>
      admissible_withIdct (specDefaults_admissible qtY qtC hlt hpos hw hh) fun _ => idctDefault_conforms_unitDc,
    idctDefault_not_conforms_jpeg⟩

end Sys2Proof.Machine
end

section
/-! PROOF. The colour conversion (spec 42_color_conversion.md R160 to R169; 43_macroblock_and_image_assembly.md R183): PIXEL over the
integers, the chroma sample of a macroblock pixel, and what CONVERT of one Y block and of all four leave in the patch. -/

namespace Sys2Proof.Machine

/-! ### One byte of PIXEL (R163 to R165) -/

/-- The flip of R165 is an offset by 128 modulo 256. -/
theorem xor_0x80_eq_add (b : Byte) : b ^^^ 0x80#8 = b + 0x80#8 := by
  revert b
  decide

/-- On a signed byte the flip adds 128 and nothing wraps. -/
theorem flipByte_toNat {t : Int} (h1 : -128 ≤ t) (h2 : t ≤ 127) : ((flipByte t).toNat : Int) = t + 128 := by
  rw [flipByte, xor_0x80_eq_add, BitVec.toNat_add, BitVec.toNat_ofInt]
  change (((t % 256).toNat + 128) % 256 : Nat) = t + 128
  omega

/-- Clamp and flip of any integer (R165), the clamp's bounds in the rule's order. -/
theorem flipByte_clamp_toNat (s : Int) : ((flipByte (clamp s (-128) 127)).toNat : Int) = max (-128) (min 127 s) + 128 := by
  obtain ⟨h1, h2⟩ := clamp_bounds (v := s) (lo := -128) (hi := 127) (by omega)
  rw [flipByte_toNat h1 h2, clamp]
  omega

/-- Truncation on a natural number, with the sign written out that is 0 on 0 and 1 above. -/
theorem natCast_tdiv_eq_sign_mul (m d : ℕ) : (m : Int).tdiv d = (m : Int).sign * ((m / d : ℕ) : Int) := by
  rcases Nat.eq_zero_or_pos m with rfl | hm
  · simp
  · rw [Int.sign_natCast_of_ne_zero hm.ne', one_mul, Int.ofNat_tdiv]

/-- TRUNC rounds the magnitude down and keeps the sign (R163). -/
theorem toInt_trunc_eq_floor (n : Int) (d : Nat) : toInt .trunc n d = n.sign * ⌊(n.natAbs : ℚ) / d⌋ := by
  rw [Rat.floor_natCast_div_natCast, toInt]
  obtain ⟨m, rfl | rfl⟩ := Int.eq_nat_or_neg n
  · exact natCast_tdiv_eq_sign_mul m d
  · rw [Int.neg_tdiv, Int.sign_neg, Int.natAbs_neg, neg_mul]
    exact congrArg Neg.neg (natCast_tdiv_eq_sign_mul m d)

/-- FLOOR is the floor of the quotient (R163). -/
theorem toInt_floor_eq_floor (n : Int) (d : Nat) : toInt .floor n d = ⌊(n : ℚ) / d⌋ :=
  (Rat.floor_intCast_div_natCast n d).symm

/-- NEAREST is the floor of the quotient and a half: a tie goes up (R163). -/
theorem toInt_nearest_eq_floor (n : Int) {d : Nat} (hd : 0 < d) : toInt .nearest n d = ⌊(n : ℚ) / d + 1 / 2⌋ := by
  have hquot : (n : ℚ) / d + 1 / 2 = ((2 * n + d : Int) : ℚ) / ((2 * d : Nat) : ℚ) := by
    push_cast
    field_simp
  rw [hquot, Rat.floor_intCast_div_natCast]
  rfl

/-- One byte of PIXEL as the 9-bit value of its channel, clamped and offset (R167). -/
theorem pixel_toNat (mode : ColorToInt) (y cb cr : Int) (c : Fin 3) :
    ((pixel mode y cb cr c).toNat : Int) =
      max (-128) (min 127 (sext9 (toInt mode (channelNum y cb cr c) 10000))) + 128 :=
  flipByte_clamp_toNat _

/-- Three samples of 0 are mid-grey under each conversion. -/
theorem pixel_zero (mode : ColorToInt) (c : Fin 3) : pixel mode 0 0 0 c = 128#8 := by
  have hnum : channelNum 0 0 0 c = 0 := by fin_cases c <;> rfl
  rw [pixel, hnum]
  cases mode <;> decide

/-! ### The chroma sample of a macroblock pixel (R161) -/

@[simp] theorem chromaPos_val (py px : Fin 16) : (chromaPos py px).val = py.val / 2 * 8 + px.val / 2 := rfl

/-- Two macroblock pixels share a chroma sample where both halved coordinates agree. -/
theorem chromaPos_eq_iff (py px py' px' : Fin 16) :
    chromaPos py' px' = chromaPos py px ↔ py'.val / 2 = py.val / 2 ∧ px'.val / 2 = px.val / 2 := by
  rw [Fin.ext_iff, chromaPos_val, chromaPos_val]
  omega

/-! ### CONVERT of one Y block (R160, R166) -/

/-- The macroblock row of row y of quadrant qd. -/
def quadRow (qd : Fin 4) (y : Fin 8) : Fin 16 := ⟨y.val + quadY qd, by unfold quadY; omega⟩

/-- The macroblock column of column x of quadrant qd. -/
def quadCol (qd : Fin 4) (x : Fin 8) : Fin 16 := ⟨x.val + quadX qd, by unfold quadX; omega⟩

theorem inQuad_quadRow_quadCol (qd : Fin 4) (y x : Fin 8) : inQuad qd (quadRow qd y) (quadCol qd x) = true := by
  rw [inQuad_iff]
  simp only [quadRow, quadCol, quadY, quadX]
  omega

theorem lumaPos_quadRow_quadCol (qd : Fin 4) (y x : Fin 8) : lumaPos (quadRow qd y) (quadCol qd x) = natPos y x := by
  ext
  simp only [lumaPos, natPos, quadRow, quadCol, quadY, quadX]
  omega

/-- The patch byte of channel c of the quadrant's pixel (x, y) (R32, R160). -/
theorem patchPos_quadRow_quadCol_val (qd : Fin 4) (y x : Fin 8) (c : Fin 3) :
    (patchPos (quadRow qd y) (quadCol qd x) c).val = ((8 * (qd.val / 2) + y.val) * 16 + (8 * (qd.val % 2) + x.val)) * 3 + c.val := by
  simp only [patchPos, quadRow, quadCol, quadY, quadX]
  omega

/-- Each pixel of the quadrant comes from its own luma sample and the chroma sample at half its macroblock coordinates. -/
theorem convert_quadrant (mode : ColorToInt) (qd : Fin 4) (Y Cb Cr : Block) (patch : Patch) (y x : Fin 8) (c : Fin 3) :
    (convert mode qd Y Cb Cr patch)[patchPos (quadRow qd y) (quadCol qd x) c] =
      pixel mode Y[natPos y x] Cb[chromaPos (quadRow qd y) (quadCol qd x)] Cr[chromaPos (quadRow qd y) (quadCol qd x)] c := by
  rw [convert_patchPos, if_pos (inQuad_quadRow_quadCol qd y x)]
  simp only [lumaPos_quadRow_quadCol]

/-- A patch byte outside the quadrant keeps its value (R166). -/
theorem convert_outside (mode : ColorToInt) {qd : Fin 4} (Y Cb Cr : Block) (patch : Patch) {j : Fin 768}
    (h : j.val / 3 % 16 / 8 ≠ qd.val % 2 ∨ j.val / 48 / 8 ≠ qd.val / 2) : (convert mode qd Y Cb Cr patch)[j] = patch[j] := by
  rw [convert_getElem, if_neg]
  rw [inQuad_iff]
  simp only [patchRow, patchCol]
  omega

/-- BLOCK_END of a Y block writes SPAT, PATCH and what the block advance writes (R183, R184). -/
theorem blockEndStep_luma_frame (P : Params) {s : State} (h : 2 ≤ s.blk.val) :
    blockEndStep P s =
      { s with spat := (blockEndStep P s).spat, patch := (blockEndStep P s).patch, blk := (blockEndStep P s).blk,
               sub := (blockEndStep P s).sub, plist := (blockEndStep P s).plist, np := (blockEndStep P s).np } := by
  have h0 : s.blk.val ≠ 0 := by omega
  have h1 : s.blk.val ≠ 1 := by omega
  rw [blockEndStep_eq, if_neg h0, if_neg h1]

/-! ### The four Y blocks of a macroblock (R166, R169) -/

/-- CONVERT of uniform blocks: the quadrant shows one colour. -/
theorem convert_uniform (mode : ColorToInt) (qd : Fin 4) {Y Cb Cr : Block} {y cb cr : Int} (patch : Patch)
    (hY : ∀ p : Fin 64, Y[p] = y) (hCb : ∀ p : Fin 64, Cb[p] = cb) (hCr : ∀ p : Fin 64, Cr[p] = cr) (j : Fin 768) :
    (convert mode qd Y Cb Cr patch)[j] =
      if qd.val = (patchRow j).val / 8 * 2 + (patchCol j).val / 8 then pixel mode y cb cr (patchChan j) else patch[j] := by
  rw [convert_getElem, hY, hCb, hCr]
  simp only [inQuad_iff]

/-- CONVERT of the same uniform blocks into the four quadrants leaves nothing of the old patch. -/
theorem convert_uniform_all (mode : ColorToInt) {Y Cb Cr : Block} {y cb cr : Int} (patch : Patch)
    (hY : ∀ p : Fin 64, Y[p] = y) (hCb : ∀ p : Fin 64, Cb[p] = cb) (hCr : ∀ p : Fin 64, Cr[p] = cr) (j : Fin 768) :
    (convert mode 3 Y Cb Cr (convert mode 2 Y Cb Cr (convert mode 1 Y Cb Cr (convert mode 0 Y Cb Cr patch))))[j] =
      pixel mode y cb cr (patchChan j) := by
  have hquad : (patchRow j).val / 8 * 2 + (patchCol j).val / 8 < 4 := by omega
  simp only [convert_uniform mode _ _ hY hCb hCr]
  generalize (patchRow j).val / 8 * 2 + (patchCol j).val / 8 = q at hquad
  interval_cases q <;> rfl

/-! ### The obligations -/

/-- Settles O31: CONVERT of the block's quadrant, and the fields BLOCK_END of a Y block writes. -/
theorem lumaBlockConverted : Obligations.LumaBlockConverted := fun s qd hp hs hm hblk => by
  lift qd to Fin 4 using by omega
  refine ⟨blockEndStep params s, step_blockEnd hp hs hm, blockEndStep_spat params s, fun y x c => ?_, fun j hj => ?_,
    blockEndStep_luma_frame params (by omega)⟩
  · refine ⟨s.cbbuf[chromaPos (quadRow qd y) (quadCol qd x)], s.crbuf[chromaPos (quadRow qd y) (quadCol qd x)],
      Vector.getElem?_eq_getElem _, Vector.getElem?_eq_getElem _, ?_⟩
    rw [← patchPos_quadRow_quadCol_val, Vector.getElem?_eq_getElem (Fin.isLt _)]
    simp only [blockEndStep_patch params hblk, blockEndStep_spat]
    exact congrArg some (convert_quadrant params.colorToInt qd _ s.cbbuf s.crbuf s.patch y x c)
  · rw [blockEndStep_patch params hblk]
    exact convert_outside _ _ _ _ _ hj

/-- Settles O32: `sext9_spec` and the clamped byte's offset. -/
theorem nineBitWrapClampFlip : Obligations.NineBitWrapClampFlip :=
  ⟨fun v =>
    have ⟨hlo, hhi, hdvd⟩ := sext9_spec v
    ⟨hlo, hhi, hdvd, rfl⟩, flipByte_clamp_toNat⟩

/-- Settles O33: the three conversions as floors, and the 9-bit value of `sext9_spec`. -/
theorem pixelArithmetic : Obligations.PixelArithmetic := fun mode y cb cr c => by
  obtain ⟨hlo, hhi, hdvd⟩ := sext9_spec (toInt mode (channelNum y cb cr c) 10000)
  refine ⟨channelNum y cb cr c, _, _, ?_, ?_, hlo, hhi, hdvd, pixel_toNat mode y cb cr c⟩
  · rfl
  · cases mode with
    | trunc => exact toInt_trunc_eq_floor _ 10000
    | floor => exact toInt_floor_eq_floor _ 10000
    | nearest => exact toInt_nearest_eq_floor _ (d := 10000) (by omega)

/-- Settles O35: the quadrants cover the patch, and three samples of 0 are mid-grey. -/
theorem uniformMacroblockColour : Obligations.UniformMacroblockColour := fun mode _ _ _ _ _ _ patch hY hCb hCr j =>
  ⟨convert_uniform_all mode patch hY hCb hCr j, pixel_zero mode _⟩

/-- Settles O34: the chroma sample is the one at half the macroblock coordinates. -/
theorem chromaAtQuadrantSeam : Obligations.ChromaAtQuadrantSeam :=
  ⟨rfl, rfl, fun py px => ⟨chromaPos_val py px, fun py' px' => chromaPos_eq_iff py px py' px'⟩⟩

end Sys2Proof.Machine
end

section
/-! PROOF. The macroblock and the image (spec 43_macroblock_and_image_assembly.md R181 to R193): the step at a macroblock boundary,
BLOCK_END of the chroma blocks and the block advance, which patch covers a pixel, what placing patches in any order leaves at each
image byte, and that every step from DECODING into DONE is DONE entry. -/

namespace Sys2Proof.Machine

/-! ### The macroblock boundary (R181, R182) -/

theorem step_mbStart {s : State} (hp : s.phase = .decoding) (hs : s.sub = .mbStart) (hm : s.moves = []) :
    step s = .next (mbStartStep s) := by
  rw [step_engine hm]
  simp only [engineStep, hp, hs]

theorem mbStartStep_of_lt {s : State} (h : s.cursor < s.n) : mbStartStep s = s.beginMacroblock := by
  simp [mbStartStep, State.hasRemaining, h]

theorem mbStartStep_of_le {s : State} (h : s.n ≤ s.cursor) : mbStartStep s = State.enterDone { s with cause := .none } := by
  simp [mbStartStep, State.hasRemaining, Nat.not_lt.2 h]

/-! ### BLOCK_END of the chroma blocks (R183) -/

theorem blockEndStep_cr (P : Params) {s : State} (h : s.blk = 0) :
    blockEndStep P s = State.nextBlock { s with spat := P.idct s.np s.coef, crbuf := P.idct s.np s.coef } 1 := by
  simp [blockEndStep, routeBlock, advanceBlock, h]

theorem blockEndStep_cb (P : Params) {s : State} (h : s.blk = 1) :
    blockEndStep P s = State.nextBlock { s with spat := P.idct s.np s.coef, cbbuf := P.idct s.np s.coef } 2 := by
  simp [blockEndStep, routeBlock, advanceBlock, h]

/-! ### Which patch covers a pixel (R189, R192) -/

/-- The index of the patch whose tile covers pixel (ix, iy): tiles run down each column of `patchesPerColumn` (R189). -/
def tileOf (h ix iy : Nat) : Nat := ix / 16 * patchesPerColumn h + iy / 16

theorem div_lt_patchesPerColumn {h iy : Nat} (hy : iy < h) : iy / 16 < patchesPerColumn h := by
  unfold patchesPerColumn
  omega

theorem patchX_tileOf {h iy : Nat} (ix : Nat) (hy : iy < h) : patchX h (tileOf h ix iy) = ix / 16 * 16 := by
  have hlt := div_lt_patchesPerColumn hy
  rw [patchX, tileOf, Nat.add_comm, Nat.add_mul_div_right _ _ (by omega), Nat.div_eq_of_lt hlt, Nat.zero_add]

theorem patchY_tileOf {h iy : Nat} (ix : Nat) (hy : iy < h) : patchY h (tileOf h ix iy) = iy / 16 * 16 := by
  rw [patchY, tileOf, Nat.mul_add_mod_self_right, Nat.mod_eq_of_lt (div_lt_patchesPerColumn hy)]

/-- A pixel of patch i's tile is covered by patch i. -/
theorem tileOf_patch (h i : Nat) (py px : Fin 16) : tileOf h (patchX h i + px.val) (patchY h i + py.val) = i := by
  have hx : (patchX h i + px.val) / 16 = i / patchesPerColumn h := by unfold patchX; omega
  have hy : (patchY h i + py.val) / 16 = i % patchesPerColumn h := by unfold patchY; omega
  rw [tileOf, hx, hy, Nat.div_add_mod']

/-- Patch i's cells, by image pixel: the channels of the pixels inside the image that its tile covers (R189). -/
theorem mem_patchCells_iff_tileOf {w h i : Nat} {patch : Patch} {x : Host.Cell} :
    x ∈ patchCells w h i patch ↔ ∃ (ix iy : Nat) (c : Fin 3), ix < w ∧ iy < h ∧ tileOf h ix iy = i ∧
      x = (imageAddr w ix iy c.val, patch[patchPos (Fin.ofNat 16 iy) (Fin.ofNat 16 ix) c]) := by
  rw [mem_patchCells]
  constructor
  · rintro ⟨py, px, c, hx, hy, rfl⟩
    have epx : Fin.ofNat 16 (patchX h i + px.val) = px := Fin.ext (by simp only [Fin.ofNat, patchX]; omega)
    have epy : Fin.ofNat 16 (patchY h i + py.val) = py := Fin.ext (by simp only [Fin.ofNat, patchY]; omega)
    exact ⟨_, _, c, hx, hy, tileOf_patch h i py px, by simp only [epx, epy]⟩
  · rintro ⟨ix, iy, c, hx, hy, rfl, rfl⟩
    have ex : patchX h (tileOf h ix iy) + ix % 16 = ix := by rw [patchX_tileOf ix hy, Nat.div_add_mod']
    have ey : patchY h (tileOf h ix iy) + iy % 16 = iy := by rw [patchY_tileOf ix hy, Nat.div_add_mod']
    exact ⟨Fin.ofNat 16 iy, Fin.ofNat 16 ix, c, ex.trans_lt hx, ey.trans_lt hy, by simp only [Fin.ofNat, ex, ey]⟩

/-! ### The image after placement, byte by byte (R189 to R191) -/

/-- The byte of pixel (ix, iy), channel c, once every patch of the list is placed over what was there, `old` (R189). -/
def shownByte (h : Nat) (plist : List Patch) (ix iy : Nat) (c : Fin 3) (old : Byte) : Byte :=
  match plist[tileOf h ix iy]? with
  | some patch => patch[patchPos (Fin.ofNat 16 iy) (Fin.ofNat 16 ix) c]
  | none => old

theorem shownByte_shownByte (h : Nat) (plist : List Patch) (ix iy : Nat) (c : Fin 3) (old : Byte) :
    shownByte h plist ix iy c (shownByte h plist ix iy c old) = shownByte h plist ix iy c old := by
  unfold shownByte
  split <;> rfl

theorem shownByte_of_length_le {h ix iy : Nat} {plist : List Patch} (hl : plist.length ≤ tileOf h ix iy) (c : Fin 3) (old : Byte) :
    shownByte h plist ix iy c old = old := by
  simp only [shownByte, List.getElem?_eq_none hl]

section
variable {m : Memory} (hm : Memory.wf m) {w h ix iy : Nat} (plist : List Patch)
include hm

/-- One placement, at a pixel inside the image. -/
theorem read_placePatch_imageAddr (hx : ix < w) (hy : iy < h) (c : Fin 3) (i : Nat) :
    Memory.read (placePatch w h plist m i) (imageAddr w ix iy c.val) =
      if tileOf h ix iy = i then shownByte h plist ix iy c (Memory.read m (imageAddr w ix iy c.val))
      else Memory.read m (imageAddr w ix iy c.val) := by
  have same : ∀ {patch : Patch} {x : Host.Cell}, x ∈ patchCells w h i patch → x.1 = imageAddr w ix iy c.val →
      tileOf h ix iy = i ∧ x.2 = patch[patchPos (Fin.ofNat 16 iy) (Fin.ofNat 16 ix) c] := by
    intro patch x hmem e
    obtain ⟨ix', iy', c', hx', hy', ht, rfl⟩ := mem_patchCells_iff_tileOf.1 hmem
    obtain ⟨rfl, rfl, ec⟩ := imageAddr_inj hx' hx c'.isLt c.isLt e
    obtain rfl := Fin.ext ec
    exact ⟨ht, rfl⟩
  unfold placePatch
  split_ifs with ht
  · subst ht
    rw [shownByte]
    cases plist[tileOf h ix iy]? with
    | none => rfl
    | some patch =>
      exact read_writeAll_of_mem hm (mem_patchCells_iff_tileOf.2 ⟨ix, iy, c, hx, hy, rfl, rfl⟩) fun x hmem e => (same hmem e).2
  · cases plist[i]? with
    | none => rfl
    | some patch => exact read_writeAll_of_notMem hm fun x hmem e => ht (same hmem e).1

/-- Placements in any order, at a pixel inside the image: they show the covering patch, where it is among them. -/
theorem read_foldl_placePatch_imageAddr (hx : ix < w) (hy : iy < h) (c : Fin 3) (order : List Nat) :
    Memory.read (order.foldl (placePatch w h plist) m) (imageAddr w ix iy c.val) =
      if tileOf h ix iy ∈ order then shownByte h plist ix iy c (Memory.read m (imageAddr w ix iy c.val))
      else Memory.read m (imageAddr w ix iy c.val) := by
  induction order generalizing m with
  | nil => rfl
  | cons i order ih =>
    rw [List.foldl_cons, ih (wf_placePatch hm w h plist i), read_placePatch_imageAddr hm plist hx hy]
    by_cases hi : tileOf h ix iy = i
    · simp only [← hi, List.mem_cons, true_or, if_true, shownByte_shownByte, ite_self]
    · simp only [hi, List.mem_cons, false_or, if_false]

/-- Placements write nothing but the image's pixels (R189). -/
theorem read_foldl_placePatch_of_ne {a : Nat} (ha : ∀ (ix iy : Nat) (c : Fin 3), ix < w → iy < h → imageAddr w ix iy c.val ≠ a)
    (order : List Nat) : Memory.read (order.foldl (placePatch w h plist) m) a = Memory.read m a := by
  induction order generalizing m with
  | nil => rfl
  | cons i order ih =>
    rw [List.foldl_cons, ih (wf_placePatch hm w h plist i), placePatch]
    cases plist[i]? with
    | none => rfl
    | some patch =>
      refine read_writeAll_of_notMem hm fun x hmem => ?_
      obtain ⟨ix, iy, c, hx, hy, -, rfl⟩ := mem_patchCells_iff_tileOf.1 hmem
      exact ha ix iy c hx hy

/-- DONE entry, at a pixel inside the image. -/
theorem read_placeAll_imageAddr (hx : ix < w) (hy : iy < h) (c : Fin 3) :
    Memory.read (placeAll w h plist.length plist m) (imageAddr w ix iy c.val) =
      shownByte h plist ix iy c (Memory.read m (imageAddr w ix iy c.val)) := by
  rw [placeAll, read_foldl_placePatch_imageAddr hm plist hx hy]
  split_ifs with ht
  · rfl
  · exact (shownByte_of_length_le (by simpa using ht) c _).symm

/-- Placing the same indices in two orders gives the same memory (R191). -/
theorem foldl_placePatch_perm (w h : Nat) {order order' : List Nat} (ho : order.Perm order') :
    order.foldl (placePatch w h plist) m = order'.foldl (placePatch w h plist) m := by
  refine memory_ext (wf_foldl_placePatch hm w h plist order) (wf_foldl_placePatch hm w h plist order') fun a => ?_
  by_cases ha : ∃ (ix iy : Nat) (c : Fin 3), ix < w ∧ iy < h ∧ imageAddr w ix iy c.val = a
  · obtain ⟨ix, iy, c, hx, hy, rfl⟩ := ha
    simp only [read_foldl_placePatch_imageAddr hm plist hx hy, ho.mem_iff]
  · have hne : ∀ (ix iy : Nat) (c : Fin 3), ix < w → iy < h → imageAddr w ix iy c.val ≠ a :=
      fun ix iy c hx hy e => ha ⟨ix, iy, c, hx, hy, e⟩
    rw [read_foldl_placePatch_of_ne hm plist hne, read_foldl_placePatch_of_ne hm plist hne]

end

/-! ### Every step from DECODING into DONE is DONE entry (R190) -/

theorem engineStep_eq_enterDone {P : Params} {s t : State} (hp : s.phase = .decoding) (e : engineStep P (execWith P) s = .next t)
    (ht : t.phase = .done) : t = State.enterDone { s with cause := t.cause } := by
  have hne : t.phase ≠ s.phase := by rw [ht, hp]; decide
  rcases engineStep_cases P (execWith P) s with ⟨hp', -⟩ | ⟨-, -, -, e'⟩ | ⟨-, -, -, e'⟩ | ⟨-, -, -, e'⟩ |
    ⟨w, i, -, -, -, -, -, e'⟩ | ⟨-, -, e'⟩
  case inl => exact absurd hp hp'
  case inr.inr.inr.inr.inl =>
    obtain ⟨q, coef, k, sub, rfl⟩ := execWith_frame (e'.symm.trans e)
    exact absurd rfl hne
  all_goals obtain rfl := Host.Outcome.next.inj (e'.symm.trans e)
  · exact absurd rfl hne
  · rfl
  · rfl
  · rw [blockEndStep_eq] at hne
    exact absurd rfl hne

theorem startMove_of_decoding (P : Params) (words : List Word) (odd : Bool) (w h : Int) {s : State} (hp : s.phase = .decoding) :
    startMove P words odd w h s = .refused .startWhileDecoding := if_pos hp

theorem stepWith_eq_enterDone {P : Params} {s t : State} (hp : s.phase = .decoding) (e : stepWith P s = .next t)
    (ht : t.phase = .done) : t = State.enterDone { s with cause := t.cause, moves := t.moves } := by
  rcases stepBy_cases P (execWith P) s with ⟨-, e'⟩ | ⟨rest, -, e'⟩ | ⟨rest, -, e'⟩ | ⟨words, w, h, rest, -, e'⟩ |
    ⟨bytes, w, h, rest, -, e'⟩ | ⟨rest, -, e'⟩ | ⟨i, rest, -, e'⟩
  · rw [engineStep_eq_enterDone hp (e'.symm.trans e) ht]
    rfl
  · rw [engineStep_eq_enterDone (s := s.setMoves rest) hp (e'.symm.trans e) ht]
    rfl
  · cases e'.symm.trans e
    cases ht
  · rw [startMove_of_decoding P _ _ _ _ (s := s.setMoves rest) hp] at e'
    cases e'.symm.trans e
  · rw [startMove_of_decoding P _ _ _ _ (s := s.setMoves rest) hp] at e'
    cases e'.symm.trans e
  · cases e'.symm.trans e
    exact absurd (hp.symm.trans ht) (by decide)
  · rw [readImageMove, setMoves_phase, hp] at e'
    cases e'.symm.trans e

/-! ### The obligations -/

/-- Settles O36: the two ways the block advance goes. -/
theorem blockAdvance : Obligations.BlockAdvance := fun s hp hs hm => by
  refine ⟨blockEndStep params s, step_blockEnd hp hs hm, ?_⟩
  rcases blockEndStep_cases params s with ⟨_, _, _, _, b, hlt, hb, e⟩ | ⟨_, _, _, _, h5, e⟩ <;> rw [e]
  · exact ⟨hp, rfl, rfl, fun _ => ⟨hb, rfl, rfl, rfl⟩, fun h5 => by omega⟩
  · exact ⟨hp, rfl, rfl, fun hlt => by omega, fun _ => ⟨rfl, rfl, rfl⟩⟩

/-- Settles O40: DONE entry, read at each pixel, and that no pixel's address is outside the image. -/
theorem doneImage : Obligations.DoneImage := fun s t hnp hwf hp e ht => by
  rw [stepWith_eq_enterDone hp ((step_eq_stepWith s).symm.trans e) ht, enterDone_image]
  simp only [← hnp]
  refine ⟨fun ix iy c hx hy => read_placeAll_imageAddr hwf s.plist hx hy c, fun a ha => ?_⟩
  refine read_foldl_placePatch_of_ne hwf s.plist (fun ix iy c hx hy ea => ?_) _
  have hlt : imageAddr s.w ix iy c.val < s.w * s.h * 3 := imageAddr_lt hx hy
  omega

/-- Settles O41: the address gives the pixel, and the pixel the index of the one patch that covers it. -/
theorem tilesDisjoint : Obligations.TilesDisjoint := fun w h i j p p' hij x hx y hy e => by
  obtain ⟨ix, iy, c, hix, -, rfl, rfl⟩ := mem_patchCells_iff_tileOf.1 hx
  obtain ⟨ix', iy', c', hix', -, rfl, rfl⟩ := mem_patchCells_iff_tileOf.1 hy
  obtain ⟨rfl, rfl, -⟩ := imageAddr_inj hix hix' c.isLt c'.isLt e
  exact hij rfl

/-- Settles O42: the index order of R190 is one of the orders. -/
theorem placementOrderIrrelevant : Obligations.PlacementOrderIrrelevant := fun w h _ plist _ _ hm ho =>
  foldl_placePatch_perm hm plist w h ho

/-- Settles O29: the two branches of MB_START. -/
theorem macroblockBoundary : Obligations.MacroblockBoundary := fun s hp hs hm =>
  ⟨fun h => by rw [step_mbStart hp hs hm, mbStartStep_of_lt h]; rfl,
   fun h => by rw [step_mbStart hp hs hm, mbStartStep_of_le h]; rfl⟩

/-- Settles O30: BLOCK_END of block 0 and of block 1. -/
theorem chromaBlockKept : Obligations.ChromaBlockKept := fun _ hp hs hm =>
  ⟨fun h => ⟨_, (step_blockEnd hp hs hm).trans (congrArg _ (blockEndStep_cr params h)), rfl, rfl, rfl, rfl, rfl⟩,
   fun h => ⟨_, (step_blockEnd hp hs hm).trans (congrArg _ (blockEndStep_cb params h)), rfl, rfl, rfl, rfl, rfl⟩⟩

end Sys2Proof.Machine
end

section
/-! PROOF. The exceptions (spec 60_exceptions.md R203, R204): which engine steps record END_OF_STREAM, and the state its entry leaves. -/

namespace Sys2Proof.Machine

/-- During a decode no cause is recorded yet (R22, R36). -/
theorem State.Inv.cause_of_decoding {P : Params} {s : State} (h : s.Inv P) (hp : s.phase = .decoding) : s.cause = .none := by
  simpa [causeFits, hp] using h.cause_fits

/-- Where END_OF_STREAM is not recorded yet, the engine step that records it is the word read with no word left (R203). -/
theorem engineStep_cause_eq_endOfStream_iff {P : Params} {s t : State} (hp : s.phase = .decoding) (hc : s.cause ≠ .endOfStream)
    (e : engineStep P (execWith P) s = .next t) :
    t.cause = .endOfStream ↔ (s.sub = .expectDc ∨ s.sub = .expectAc) ∧ s.n ≤ s.cursor := by
  rcases engineStep_cases P (execWith P) s with ⟨hp', -⟩ | ⟨-, hs, -, e'⟩ | ⟨-, hs, -, e'⟩ | ⟨-, hs, hn, e'⟩ |
    ⟨w, i, -, -, hlt, -, -, e'⟩ | ⟨-, hs, e'⟩
  case inl => exact absurd hp hp'
  case inr.inr.inr.inr.inl =>
    obtain ⟨q, coef, k, sub, rfl⟩ := execWith_frame (e'.symm.trans e)
    exact iff_of_false hc fun ⟨_, hn⟩ => absurd hn (Nat.not_le.2 hlt)
  all_goals obtain rfl := Host.Outcome.next.inj (e'.symm.trans e)
  · exact iff_of_false hc (by simp [hs])
  · exact iff_of_false (by simp) (by simp [hs])
  · exact iff_of_true rfl ⟨hs, hn⟩
  · refine iff_of_false ?_ (by simp [hs])
    rw [blockEndStep_eq]
    exact hc

/-- Settles O22: CURSOR ≤ N of the invariant makes the bound an equality, and the entry into DONE leaves CURSOR. -/
theorem endOfStreamExactlyAtBound : Obligations.EndOfStreamExactlyAtBound := fun s t h hp hm e => by
  have hengine : engineStep params (execWith params) s = .next t := by
    simpa only [step_eq_stepWith, stepWith, stepBy, hm] using e
  have hiff := engineStep_cause_eq_endOfStream_iff hp (by simp [h.cause_of_decoding hp]) hengine
  refine ⟨hiff, fun ht => ?_⟩
  obtain ⟨hs, hn⟩ := hiff.1 ht
  obtain rfl := Host.Outcome.next.inj ((step_endOfStream hp hs hm hn).symm.trans e)
  exact ⟨Nat.le_antisymm h.cursor_le hn, takeException_cursor _ s⟩

/-- Settles O23: taking the exception is the next state, by the definition of DONE entry. -/
theorem endOfStreamEntry : Obligations.EndOfStreamEntry := fun _ hp hs hm hn => step_endOfStream hp hs hm hn

end Sys2Proof.Machine
end

section
/-! PROOF. Words and tables of fixed values (spec 20_memory.md R52; 30_encoding.md R82; 40_block_decoder.md R104, R113): the words of the
byte form, the AC dequantizer's bound, the worked encodings and the default zigzag. -/

namespace Sys2Proof.Machine

/-! ### The byte form of a stream (R52) -/

/-- Two fields one after the other, as a number. -/
theorem append_toNat {m n : Nat} (hi : BitVec m) (lo : BitVec n) : (hi ++ lo).toNat = 2 ^ n * hi.toNat + lo.toNat := by
  rw [BitVec.toNat_append, Nat.shiftLeft_eq, Nat.mul_comm, Nat.two_pow_add_eq_or_of_lt lo.isLt]

/-- Each word takes two bytes, and a last odd byte forms none (R56). -/
@[simp] theorem wordsOfBytes_length (order : ByteOrder) : ∀ bytes, (wordsOfBytes order bytes).length = bytes.length / 2
  | [] => rfl
  | [_] => by simp [wordsOfBytes]
  | _ :: _ :: rest => by
    rw [wordsOfBytes, List.length_cons, wordsOfBytes_length order rest, List.length_cons, List.length_cons]
    omega

/-- Word a is formed of bytes 2a and 2a + 1. -/
theorem wordsOfBytes_getElem? (order : ByteOrder) {b0 b1 : Byte} : ∀ (bytes : List Byte) (a : Nat),
    bytes[2 * a]? = some b0 → bytes[2 * a + 1]? = some b1 → (wordsOfBytes order bytes)[a]? = some (wordOfBytes order b0 b1)
  | [], _, h0, _ => nomatch h0
  | [_], a, _, h1 => by simp at h1
  | _ :: _ :: _, 0, h0, h1 => by
    obtain rfl := Option.some.inj h0
    obtain rfl := Option.some.inj h1
    rfl
  | _ :: _ :: rest, a + 1, h0, h1 => wordsOfBytes_getElem? order rest a h0 h1

/-! ### The AC dequantizer (R113) -/

/-- R113's bound on the product, from R111's and the range of a quantization scale. -/
theorem abs_mul_mul_le_of_operands {amp e q : Int} (h1 : -512 ≤ amp) (h2 : amp ≤ 511) (h3 : 0 ≤ e) (h4 : e ≤ 255) (h5 : 0 ≤ q)
    (h6 : q ≤ 63) : |amp * e * q| ≤ 8225280 := by
  have hprod : |amp * e| ≤ 130560 := abs_mul_le_of_operands h1 h2 h3 h4
  have hq : |q| ≤ 63 := abs_le.2 ⟨by omega, h6⟩
  calc |amp * e * q| = |amp * e| * |q| := abs_mul _ q
    _ ≤ 130560 * 63 := mul_le_mul hprod hq (abs_nonneg q) (by omega)

/-! ### The obligations -/

/-- Settles O6: the word of two bytes as a number, and which two bytes form word a. -/
theorem byteFormWords : Obligations.ByteFormWords := fun order bytes =>
  ⟨wordsOfBytes_length order bytes, fun a b0 b1 h0 h1 => ⟨_, wordsOfBytes_getElem? order bytes a h0 h1, by
    cases order with
    | little => exact (append_toNat b1 b0).trans (Nat.add_comm _ _)
    | big => exact append_toNat b0 b1⟩⟩

/-- Settles O10: the value of `dqAc_eq`, and the product's bound from those of its factors. -/
theorem acDequantizer : Obligations.AcDequantizer :=
  ⟨dqAc_eq, fun _ _ _ => abs_mul_mul_le_of_operands, by decide⟩

/-- Settles O1: each word is compared with the sentinel and its fields are taken. -/
theorem workedEncodingsDecode : Obligations.WorkedEncodingsDecode := by
  unfold Obligations.WorkedEncodingsDecode
  decide

/-- Settles O8: R105 is what the default parameters were admitted for, and the walk is read off the 64 entries. -/
theorem defaultZigzagWalksDiagonals : Obligations.DefaultZigzagWalksDiagonals := by
  obtain ⟨hzero, hinj⟩ := defaultZigzag_ok (.replicate 64 0) (.replicate 64 0)
  exact ⟨hzero, hinj, by decide⟩

end Sys2Proof.Machine
end

section
/-! PROOF. The host's port (spec 10_state.md R40 to R44; 60_exceptions.md R202, R207, R208; 70_reset_and_hazards.md R230, R231): START in
both forms, the reads, RESET, and which steps are refused. -/

namespace Sys2Proof.Machine

/-- With a host move pending, a step is that move's operation. -/
theorem step_move {s : State} {m : HostMove} {rest : List HostMove} (hm : s.moves = m :: rest) :
    step s = hostMove params exec m (s.setMoves rest) := by
  simp only [step, stepBy, hm]

/-! ### START, one equation per outcome (R40, R202, R208) -/

section
variable (P : Params) {words : List Word} (odd : Bool) {w h : Int} {s : State} (hp : s.phase ≠ .decoding)
include hp

theorem startMove_of_tooLarge (hlim : P.maxWords < words.length ∨ (P.maxW : Int) < w ∨ (P.maxH : Int) < h) :
    startMove P words odd w h s = .refused .startTooLarge := by
  rw [startMove, if_neg hp, if_pos hlim]

theorem startMove_of_invalid (hn : words.length ≤ P.maxWords) (hw : w ≤ P.maxW) (hh : h ≤ P.maxH)
    (hbad : w ≤ 0 ∨ h ≤ 0 ∨ odd = true) : startMove P words odd w h s = .next (takeException .invalidInputSize s) := by
  rw [startMove, if_neg hp, if_neg (by omega), if_pos hbad]

theorem startMove_of_valid (hn : words.length ≤ P.maxWords) (hw : w ≤ P.maxW) (hh : h ≤ P.maxH) (hw0 : 0 < w) (hh0 : 0 < h) :
    startMove P words false w h s = .next (s.initDecode words w.toNat h.toNat) := by
  have hgood : ¬(w ≤ 0 ∨ h ≤ 0 ∨ false = true) := by simp [hw0, hh0]
  rw [startMove, if_neg hp, if_neg (by omega), if_neg hgood]

end

/-- START in either form runs one operation on the words it supplies (R40, R52). -/
theorem step_start_eq_startMove {s : State} {m : HostMove} {rest : List HostMove} {n : Nat} {w h : Int} (hm : s.moves = m :: rest)
    (hstart : (∃ words, m = .start words w h ∧ n = words.length) ∨ (∃ bytes, m = .startBytes bytes w h ∧ n = bytes.length / 2)) :
    ∃ words odd, words.length = n ∧ step s = startMove params words odd w h (s.setMoves rest) := by
  rcases hstart with ⟨words, rfl, rfl⟩ | ⟨bytes, rfl, rfl⟩
  · exact ⟨words, _, rfl, step_move hm⟩
  · exact ⟨_, _, wordsOfBytes_length _ bytes, step_move hm⟩

/-! ### STATUS (R44) -/

theorem statusWord_toNat (s : State) : (statusWord s).toNat = (phaseCode s.phase).toNat + 4 * (causeCode s.cause).toNat := by
  rw [statusWord, append_toNat, append_toNat]
  simp [Nat.add_comm]

theorem statusWord_reset : statusWord State.reset = 0#32 := rfl

/-! ### What is refused (R208) -/

/-- The engine refuses nothing: each of its steps gives a next state. -/
theorem engineStep_total (P : Params) (s : State) : ∃ t, engineStep P (execWith P) s = .next t := by
  rcases engineStep_cases P (execWith P) s with ⟨-, e⟩ | ⟨-, -, -, e⟩ | ⟨-, -, -, e⟩ | ⟨-, -, -, e⟩ | ⟨w, i, -, -, -, -, -, e⟩ | ⟨-, -, e⟩
  case inr.inr.inr.inr.inl =>
    obtain ⟨t, ht, -⟩ := execWith_cases P i s.consume
    exact ⟨t, e.trans ht⟩
  all_goals exact ⟨_, e⟩

theorem engineStep_ne_refused (P : Params) (s : State) (r : Refusal) : engineStep P (execWith P) s ≠ .refused r := by
  obtain ⟨t, ht⟩ := engineStep_total P s
  rw [ht]
  nofun

theorem startMove_eq_refused {P : Params} {words : List Word} {odd : Bool} {w h : Int} {s : State} {r : Refusal}
    (e : startMove P words odd w h s = .refused r) :
    (r = .startWhileDecoding ∧ s.phase = .decoding) ∨
    (r = .startTooLarge ∧ s.phase ≠ .decoding ∧ (P.maxWords < words.length ∨ (P.maxW : Int) < w ∨ (P.maxH : Int) < h)) := by
  rcases startMove_cases P words odd w h s with ⟨hp, e'⟩ | ⟨hp, hlim, e'⟩ | ⟨-, -, -, -, -, e'⟩ | ⟨-, -, -, -, -, -, -, e'⟩ <;>
    cases e'.symm.trans e
  · exact .inl ⟨rfl, hp⟩
  · exact .inr ⟨rfl, hp, hlim⟩

theorem readImageMove_eq_refused {i : Nat} {s : State} {r : Refusal} (e : readImageMove i s = .refused r) :
    (r = .readImageOutsideDone ∧ s.phase ≠ .done) ∨ (r = .readImageOutOfRange ∧ s.phase = .done ∧ s.w * s.h * 3 ≤ i) := by
  rcases readImageMove_cases i s with ⟨-, -, e'⟩ | ⟨hp, hi, e'⟩ | ⟨hp, e'⟩ <;> cases e'.symm.trans e
  · exact .inr ⟨rfl, hp, hi⟩
  · exact .inl ⟨rfl, hp⟩

/-! ### The obligations -/

/-- Settles O24, from START's equations: an invalid size is the exception, a valid one `init_decode`. -/
theorem startOutcome : Obligations.StartOutcome := fun s words w h rest hm hp hn hw hh => by
  have hmove : step s = startMove params words false w h (s.setMoves rest) := step_move hm
  refine ⟨fun hbad => ?_, fun hw0 hh0 => ?_⟩
  · exact hmove.trans (startMove_of_invalid params false hp hn hw hh (by simpa using hbad))
  · exact ⟨_, hmove.trans (startMove_of_valid params hp hn hw hh hw0 hh0), rfl, rfl, Int.toNat_of_nonneg hw0.le,
      Int.toNat_of_nonneg hh0.le, rfl, rfl, rfl, rfl, rfl, rfl, fun _ => rfl, rfl⟩

/-- Settles O25: START_BYTES is START on the words of its bytes but for an odd length, which is one more invalid size. -/
theorem startBytesOutcome : Obligations.StartBytesOutcome := fun s bytes w h rest hm hp hn hw hh => by
  have hmove : step s =
      startMove params (wordsOfBytes params.byteOrder bytes) (bytes.length % 2 == 1) w h (s.setMoves rest) := step_move hm
  rw [← wordsOfBytes_length params.byteOrder] at hn
  refine ⟨fun hbad => ?_, fun hw0 hh0 heven => ?_⟩
  · exact hmove.trans (startMove_of_invalid params _ hp hn hw hh (hbad.imp_right (Or.imp_right beq_iff_eq.2)))
  · have hodd : (bytes.length % 2 == 1) = false := beq_eq_false_iff_ne.2 (by omega)
    rw [hodd] at hmove
    exact ⟨hmove, _, hmove.trans (startMove_of_valid params hp hn hw hh hw0 hh0), rfl, wordsOfBytes_length _ bytes⟩

/-- Settles O26: START's first two tests. -/
theorem startRefused : Obligations.StartRefused := fun s m rest n w h hm hstart => by
  obtain ⟨words, odd, rfl, hmove⟩ := step_start_eq_startMove hm hstart
  exact ⟨fun hp => hmove.trans (startMove_of_decoding params words odd w h hp),
    fun hp hlim => hmove.trans (startMove_of_tooLarge params odd hp hlim)⟩

/-- Settles O28: of a step's forms the engine's, RESET and READ_STATUS always answer; START and READ_IMAGE are refused as their own
inversion lemmas say. -/
theorem refusalsAreHostInputs : Obligations.RefusalsAreHostInputs := fun s r e => by
  rw [step_eq_stepWith] at e
  rcases stepBy_cases params (execWith params) s with ⟨-, e'⟩ | ⟨rest, -, e'⟩ | ⟨rest, -, e'⟩ | ⟨words, w, h, rest, hm, e'⟩ |
    ⟨bytes, w, h, rest, hm, e'⟩ | ⟨rest, -, e'⟩ | ⟨i, rest, hm, e'⟩
  · exact absurd (e'.symm.trans e) (engineStep_ne_refused params s r)
  · exact absurd (e'.symm.trans e) (engineStep_ne_refused params _ r)
  · cases e'.symm.trans e
  · refine ⟨_, rest, hm, ?_⟩
    rcases startMove_eq_refused (e'.symm.trans e) with ⟨hr, hp⟩ | ⟨hr, hp, hlim⟩
    · exact .inl ⟨hr, hp, .inl ⟨words, w, h, rfl⟩⟩
    · exact .inr (.inl ⟨hr, hp, _, w, h, .inl ⟨words, rfl, rfl⟩, hlim⟩)
  · refine ⟨_, rest, hm, ?_⟩
    rcases startMove_eq_refused (e'.symm.trans e) with ⟨hr, hp⟩ | ⟨hr, hp, hlim⟩
    · exact .inl ⟨hr, hp, .inr ⟨bytes, w, h, rfl⟩⟩
    · rw [wordsOfBytes_length] at hlim
      exact .inr (.inl ⟨hr, hp, _, w, h, .inr ⟨bytes, rfl, rfl⟩, hlim⟩)
  · cases e'.symm.trans e
  · exact ⟨_, rest, hm, .inr (.inr ⟨i, rfl, readImageMove_eq_refused (s := s.setMoves rest) (e'.symm.trans e)⟩)⟩

/-- Settles O43: the codes of PHASE and CAUSE in their places, and counts below 2^32 as themselves. -/
theorem statusRead : Obligations.StatusRead := fun s rest hm => by
  refine ⟨statusWord s, BitVec.ofNat 32 s.np, BitVec.ofNat 32 s.cursor, step_move hm, ?_,
    fun hnp => BitVec.toNat_ofNat _ _ |>.trans (Nat.mod_eq_of_lt hnp), fun hc => BitVec.toNat_ofNat _ _ |>.trans (Nat.mod_eq_of_lt hc)⟩
  rw [statusWord_toNat]
  cases s.phase <;> cases s.cause <;> rfl

/-- Settles O44: the three outcomes of READ_IMAGE exclude each other. -/
theorem imageRead : Obligations.ImageRead := fun s i rest hm => by
  have hmove : step s = readImageMove i (s.setMoves rest) := step_move hm
  rcases readImageMove_cases i (s.setMoves rest) with ⟨hp, hi, e⟩ | ⟨hp, hi, e⟩ | ⟨hp, e⟩ <;> rw [← hmove] at e
  · exact ⟨fun _ _ => e, fun h => absurd hp h, fun _ h => absurd hi (Nat.not_lt.2 h)⟩
  · exact ⟨fun _ h => absurd h (Nat.not_lt.2 hi), fun h => absurd hp h, fun _ _ => e⟩
  · exact ⟨fun h => absurd h hp, fun _ => e, fun h => absurd h hp⟩

/-- Settles O45: the state of RESET with the host's further moves. -/
theorem resetEvent : Obligations.ResetEvent := fun s rest hm =>
  ⟨(s.setMoves rest).resetEvent, step_move hm, rfl, rfl, rfl, rfl, rfl, statusWord_reset, fun _ => rfl, rfl⟩

/-- Settles O46. -/
theorem resetValues : Obligations.ResetValues := ⟨rfl, rfl, rfl, rfl, rfl, statusWord_reset⟩

/-- Settles O47: the dispatch of the three other phases. -/
theorem engineIdleOutsideDecoding : Obligations.EngineIdleOutsideDecoding := fun s hp hm => by
  rw [step_engine hm]
  rcases engineStep_cases params exec s with ⟨-, e⟩ | ⟨hd, -⟩ | ⟨hd, -⟩ | ⟨hd, -⟩ | ⟨w, i, hd, -⟩ | ⟨hd, -⟩
  case inl => exact e
  all_goals exact absurd hd hp

end Sys2Proof.Machine
end

section
/-! PROOF. What a step can change of the configuration, PHASE, CAUSE, CURSOR, NP and IMAGE (spec 10_state.md R21, R34;
20_memory.md R64; 43_macroblock_and_image_assembly.md R195; 70_reset_and_hazards.md R230, R236), and the invariants at RESET. -/

namespace Sys2Proof.Machine

/-! ### What a step can do, seen from outside the macroblock in flight -/

/-- The moves that begin a decode, or try to (R40). -/
def HostMove.IsStart (m : HostMove) : Prop := (∃ a w h, m = .start a w h) ∨ ∃ a w h, m = .startBytes a w h

/-- A step inside a decode counts CURSOR and NP up, if at all (R236). -/
structure Advances (s t : State) : Prop extends SameDecode s t where
  cursor_le : s.cursor ≤ t.cursor
  np_le     : s.np ≤ t.np

theorem blockEndStep_advances (P : Params) (s : State) : Advances s (blockEndStep P s) := by
  rcases blockEndStep_cases P s with ⟨_, _, _, _, b, -, -, e⟩ | ⟨_, _, _, _, -, e⟩ <;> rw [e]
  · exact ⟨⟨rfl, rfl, rfl, rfl, rfl, rfl⟩, Nat.le_refl _, Nat.le_refl _⟩
  · exact ⟨⟨rfl, rfl, rfl, rfl, rfl, rfl⟩, Nat.le_refl _, Nat.le_succ _⟩

/-- Every next state of the engine: the same state outside a decode; inside one, DONE entry or an advance. -/
theorem cases_of_engineStep_eq_next {P : Params} {s t : State} (e : engineStep P (execWith P) s = .next t) :
    (s.phase ≠ .decoding ∧ t = s) ∨ (s.phase = .decoding ∧ ∃ c, t = State.enterDone { s with cause := c }) ∨
    (s.phase = .decoding ∧ Advances s t) := by
  rcases engineStep_cases P (execWith P) s with ⟨hp, e'⟩ | ⟨hp, -, -, e'⟩ | ⟨hp, -, -, e'⟩ | ⟨hp, -, -, e'⟩ |
    ⟨w, i, hp, -, -, -, -, e'⟩ | ⟨hp, -, e'⟩
  case inr.inr.inr.inr.inl =>
    obtain ⟨q, coef, k, sub, rfl⟩ := execWith_frame (e'.symm.trans e)
    exact .inr (.inr ⟨hp, ⟨rfl, rfl, rfl, rfl, rfl, rfl⟩, Nat.le_succ _, Nat.le_refl _⟩)
  all_goals obtain rfl := Host.Outcome.next.inj (e'.symm.trans e)
  · exact .inl ⟨hp, rfl⟩
  · exact .inr (.inr ⟨hp, ⟨rfl, rfl, rfl, rfl, rfl, rfl⟩, Nat.le_refl _, Nat.le_refl _⟩)
  · exact .inr (.inl ⟨hp, _, rfl⟩)
  · exact .inr (.inl ⟨hp, _, rfl⟩)
  · exact .inr (.inr ⟨hp, blockEndStep_advances P s⟩)

/-- A START that is not refused found no decode under way. -/
theorem startMove_eq_next {P : Params} {words : List Word} {odd : Bool} {w h : Int} {s t : State}
    (e : startMove P words odd w h s = .next t) : s.phase ≠ .decoding := fun hp => by
  cases (startMove_of_decoding P words odd w h hp).symm.trans e

/-- A read that is not refused leaves its answer and nothing else (R42). -/
theorem readImageMove_eq_next {i : Nat} {s t : State} (e : readImageMove i s = .next t) : ∃ r, t = s.answer r := by
  rcases readImageMove_cases i s with ⟨-, -, e'⟩ | ⟨-, -, e'⟩ | ⟨-, e'⟩ <;> cases e'.symm.trans e
  exact ⟨_, rfl⟩

/-- Every next state of the machine: the engine's, a read's, RESET's, or a START's outside a decode. -/
theorem cases_of_step_eq_next {s t : State} (e : step s = .next t) :
    (∃ ms, engineStep params (execWith params) (s.setMoves ms) = .next t) ∨
    (∃ ms r, t = (s.setMoves ms).answer r) ∨
    (∃ m rest, s.moves = m :: rest ∧ (m = .reset ∨ m.IsStart ∧ s.phase ≠ .decoding)) := by
  rw [step_eq_stepWith] at e
  rcases stepBy_cases params (execWith params) s with ⟨-, e'⟩ | ⟨rest, -, e'⟩ | ⟨rest, hm, -⟩ | ⟨words, w, h, rest, hm, e'⟩ |
    ⟨bytes, w, h, rest, hm, e'⟩ | ⟨rest, -, e'⟩ | ⟨i, rest, -, e'⟩
  · exact .inl ⟨s.moves, e'.symm.trans e⟩
  · exact .inl ⟨rest, e'.symm.trans e⟩
  · exact .inr (.inr ⟨_, rest, hm, .inl rfl⟩)
  · exact .inr (.inr ⟨_, rest, hm, .inr ⟨.inl ⟨words, w, h, rfl⟩, startMove_eq_next (s := s.setMoves rest) (e'.symm.trans e)⟩⟩)
  · exact .inr (.inr ⟨_, rest, hm, .inr ⟨.inr ⟨bytes, w, h, rfl⟩, startMove_eq_next (s := s.setMoves rest) (e'.symm.trans e)⟩⟩)
  · exact .inr (.inl ⟨rest, _, (Host.Outcome.next.inj (e'.symm.trans e)).symm⟩)
  · obtain ⟨r, rfl⟩ := readImageMove_eq_next (e'.symm.trans e)
    exact .inr (.inl ⟨rest, r, rfl⟩)

/-- During a decode and without RESET, a step enters DONE or advances. -/
theorem cases_of_step_of_decoding {s t : State} (hp : s.phase = .decoding) (e : step s = .next t)
    (hr : ∀ rest, s.moves ≠ .reset :: rest) : (∃ c ms, t = State.enterDone { s with cause := c, moves := ms }) ∨ Advances s t := by
  rcases cases_of_step_eq_next e with ⟨ms, e'⟩ | ⟨ms, r, rfl⟩ | ⟨m, rest, hm, rfl | ⟨-, hp'⟩⟩
  · rcases cases_of_engineStep_eq_next e' with ⟨hp', -⟩ | ⟨-, c, rfl⟩ | ⟨-, hadv⟩
    · exact absurd hp hp'
    · exact .inl ⟨c, ms, rfl⟩
    · exact .inr { hadv with }
  · exact .inr ⟨⟨rfl, rfl, rfl, rfl, rfl, rfl⟩, Nat.le_refl _, Nat.le_refl _⟩
  · exact absurd hm (hr rest)
  · exact absurd hp hp'

/-! ### The obligations -/

/-- Settles O48: outside a decode the engine and the reads leave PHASE as it is. -/
theorem doneLeftOnlyByStart : Obligations.DoneLeftOnlyByStart := fun s t hp e hne => by
  rcases cases_of_step_eq_next e with ⟨ms, e'⟩ | ⟨ms, r, rfl⟩ | ⟨m, rest, hm, hmove⟩
  · have hdone : (s.setMoves ms).phase ≠ .decoding := by simp [hp]
    rcases cases_of_engineStep_eq_next e' with ⟨-, rfl⟩ | ⟨hp', -⟩ | ⟨hp', -⟩
    · exact absurd hp hne
    · exact absurd hp' hdone
    · exact absurd hp' hdone
  · exact absurd hp hne
  · exact ⟨m, rest, hm, hmove.imp_right And.left⟩

/-- Settles O50: DONE entry and an advance both keep the configuration. -/
theorem configurationStable : Obligations.ConfigurationStable := fun s t hp e hr => by
  rcases cases_of_step_of_decoding hp e hr with ⟨c, ms, rfl⟩ | hadv
  · exact ⟨rfl, rfl, rfl, rfl⟩
  · exact ⟨hadv.words, congrArg List.length hadv.words, hadv.w, hadv.h⟩

/-- Settles O51: of the engine's steps only DONE entry writes IMAGE, and a read writes only its answer. -/
theorem imageWrittenOnlyAtDone : Obligations.ImageWrittenOnlyAtDone := fun s t e hne => by
  rcases cases_of_step_eq_next e with ⟨ms, e'⟩ | ⟨ms, r, rfl⟩ | ⟨m, rest, hm, hmove⟩
  · rcases cases_of_engineStep_eq_next e' with ⟨-, rfl⟩ | ⟨hp, c, rfl⟩ | ⟨-, hadv⟩
    · exact absurd rfl hne
    · exact .inl ⟨hp, rfl⟩
    · exact absurd hadv.image hne
  · exact absurd rfl hne
  · exact .inr ⟨m, rest, hm, hmove.imp_right And.left⟩

/-- Settles O52: DONE entry writes neither count, and an advance keeps PHASE and the cause NONE of the invariant. -/
theorem progressMonotone : Obligations.ProgressMonotone := fun s t hinv hp e hr => by
  rcases cases_of_step_of_decoding hp e hr with ⟨c, ms, rfl⟩ | hadv
  · exact ⟨Nat.le_refl _, Nat.le_refl _, .inr rfl, nofun⟩
  · exact ⟨hadv.cursor_le, hadv.np_le, .inl (hadv.phase.trans hp), fun _ => hadv.cause.trans (hinv.cause_of_decoding hp)⟩

/-- Settles O54. -/
theorem invariantsAtReset : Obligations.InvariantsAtReset := ⟨reset_inv params, reset_spatialFits⟩

end Sys2Proof.Machine
end

section
/-! PROOF. DC-only blocks (spec 41_inverse_transform.md R145). -/

namespace Sys2Proof.Machine

/-- Settles O38: R145 of the parameters' transform, read in SPAT; under JPEG the reference of a DC-only block is F[0]/8, which R144
keeps the one integer within 1 of. -/
theorem dcOnlyBlockReplicated : Obligations.DcOnlyBlockReplicated := fun P s hP hF hp hs hm => by
  refine ⟨blockEndStep P s, stepWith_blockEnd P hp hs hm, ?_⟩
  obtain ⟨hone, hunit, hjpeg⟩ := hP.idct_conforms s.np
  rw [blockEndStep_spat]
  cases hn : P.norm with
  | unitDc => exact hunit hn s.coef hF
  | jpeg =>
    refine ⟨_, hjpeg hn s.coef hF, fun hrange => ?_⟩
    have hzero := hone s.coef hrange 0
    rwa [hn, sRef_jpeg, sRef_unitDc_of_dcOnly hF] at hzero

end Sys2Proof.Machine
end

section
/-! PROOF. Independence of history (spec 43_macroblock_and_image_assembly.md R194; 70_reset_and_hazards.md R232, R233): two states of a
decode that agree on what a later step can read stay so, step by step, and START makes any two states agree. -/

namespace Sys2Proof.Machine

/-! ### The buffers a macroblock has filled (R183, R232) -/

/-- The quadrant of the macroblock a patch byte lies in (R160). -/
def patchQuad (j : Fin 768) : Nat := (patchRow j).val / 8 * 2 + (patchCol j).val / 8

theorem patchQuad_lt (j : Fin 768) : patchQuad j < 4 := by
  unfold patchQuad
  omega

theorem convert_getElem_of_eq {mode : ColorToInt} {qd : Fin 4} {Y Cb Cr : Block} {patch : Patch} {j : Fin 768}
    (h : patchQuad j = qd.val) : (convert mode qd Y Cb Cr patch)[j] =
      pixel mode Y[lumaPos (patchRow j) (patchCol j)] Cb[chromaPos (patchRow j) (patchCol j)]
        Cr[chromaPos (patchRow j) (patchCol j)] (patchChan j) := by
  rw [convert_getElem, if_pos ((inQuad_iff _ _ _).2 h.symm)]

theorem convert_getElem_of_ne {mode : ColorToInt} {qd : Fin 4} {Y Cb Cr : Block} {patch : Patch} {j : Fin 768}
    (h : patchQuad j ≠ qd.val) : (convert mode qd Y Cb Cr patch)[j] = patch[j] := by
  rw [convert_getElem, if_neg fun hq => h ((inQuad_iff _ _ _).1 hq).symm]

/-- Two states agree in what the first n blocks of a macroblock have written: CRBUF, CBBUF and a quadrant of PATCH for each Y block. -/
structure BuffersAgree (n : Nat) (s s' : State) : Prop where
  crbuf : 1 ≤ n → s'.crbuf = s.crbuf
  cbbuf : 2 ≤ n → s'.cbbuf = s.cbbuf
  patch : ∀ j : Fin 768, patchQuad j + 2 < n → s'.patch[j] = s.patch[j]

theorem BuffersAgree.zero (s s' : State) : BuffersAgree 0 s s' := ⟨nofun, nofun, nofun⟩

/-- After the sixth block nothing of the old patch is left. -/
theorem BuffersAgree.patch_eq {s s' : State} (h : BuffersAgree 6 s s') : s'.patch = s.patch :=
  Vector.ext fun i hi => h.patch ⟨i, hi⟩ (by have := patchQuad_lt ⟨i, hi⟩; omega)

/-- CONVERT reads the chroma blocks before it, and fills the next quadrant. -/
theorem BuffersAgree.convert_patch {n : Nat} {s s' : State} (h : BuffersAgree n s s') {qd : Fin 4} (hn : n = qd.val + 2)
    (mode : ColorToInt) (Y : Block) {j : Fin 768} (hj : patchQuad j + 2 < n + 1) :
    (convert mode qd Y s'.cbbuf s'.crbuf s'.patch)[j] = (convert mode qd Y s.cbbuf s.crbuf s.patch)[j] := by
  by_cases hq : patchQuad j = qd.val
  · rw [convert_getElem_of_eq hq, convert_getElem_of_eq hq, h.crbuf (by omega), h.cbbuf (by omega)]
  · rw [convert_getElem_of_ne hq, convert_getElem_of_ne hq]
    exact h.patch j (by omega)

theorem blockEndStep_crbuf (P : Params) (s : State) :
    (blockEndStep P s).crbuf = if s.blk.val = 0 then P.idct s.np s.coef else s.crbuf := by rw [blockEndStep_eq]

theorem blockEndStep_cbbuf (P : Params) (s : State) :
    (blockEndStep P s).cbbuf = if s.blk.val = 1 then P.idct s.np s.coef else s.cbbuf := by rw [blockEndStep_eq]

/-- BLOCK_END of the same block fills the same buffer: one block more agrees (R183). -/
theorem BuffersAgree.blockEndStep (P : Params) {s s' : State} (h : BuffersAgree s.blk.val s s') (hblk : s'.blk = s.blk)
    (hidct : P.idct s'.np s'.coef = P.idct s.np s.coef) :
    BuffersAgree (s.blk.val + 1) (blockEndStep P s) (blockEndStep P s') where
  crbuf _ := by
    rw [blockEndStep_crbuf, blockEndStep_crbuf, hblk, hidct]
    split
    · rfl
    · exact h.crbuf (by omega)
  cbbuf _ := by
    rw [blockEndStep_cbbuf, blockEndStep_cbbuf, hblk, hidct]
    split
    · rfl
    · exact h.cbbuf (by omega)
  patch j hj := by
    obtain ⟨qd, hqd⟩ : ∃ qd : Fin 4, s.blk.val = qd.val + 2 := ⟨⟨s.blk.val - 2, by omega⟩, by simp only; omega⟩
    rw [blockEndStep_patch P (hblk ▸ hqd), blockEndStep_patch P hqd, hidct]
    exact h.convert_patch hqd _ _ hj

/-! ### States of one decode that a host cannot tell apart (R194, R232) -/

/-- Two states with no host move pending, in the same phase of the same decode, that agree on every register a later step reads before
it writes it: BLK and the filled buffers inside a macroblock, COEF inside a block, K and Q between its words. -/
structure DecodesAlike (s s' : State) : Prop where
  idle    : s.moves = []
  shared  : ∃ blk k q coef spat crbuf cbbuf patch reply,
    s' = { s with blk := blk, k := k, q := q, coef := coef, spat := spat, crbuf := crbuf, cbbuf := cbbuf, patch := patch, reply := reply }
  blk     : s.sub ≠ .mbStart → s'.blk = s.blk
  buffers : s.sub ≠ .mbStart → BuffersAgree s.blk.val s s'
  scan    : s.sub = .expectAc → s'.k = s.k ∧ s'.q = s.q
  coef    : s.sub = .expectAc ∨ s.sub = .blockEnd → s'.coef = s.coef

namespace DecodesAlike

variable {s s' t t' : State}

theorem visible_eq (h : DecodesAlike s s') : visible s = visible s' := by
  obtain ⟨blk, k, q, coef, spat, crbuf, cbbuf, patch, reply, rfl⟩ := h.shared
  rfl

/-- START leaves nothing of the past that a step of the decode reads (R180). -/
theorem initDecode (s s' : State) (words : List Word) (w h : Nat) :
    DecodesAlike ((s.setMoves []).initDecode words w h) ((s'.setMoves []).initDecode words w h) where
  idle := rfl
  shared := ⟨s'.blk, s'.k, s'.q, s'.coef, s'.spat, s'.crbuf, s'.cbbuf, s'.patch, s'.reply, rfl⟩
  blk h := absurd rfl h
  buffers h := absurd rfl h
  scan := nofun
  coef := by rintro (h | h) <;> cases h

/-- A macroblock attempt writes BLK, and no buffer is filled yet (R182). -/
theorem beginMacroblock (h : DecodesAlike s s') : DecodesAlike s.beginMacroblock s'.beginMacroblock := by
  obtain ⟨blk, k, q, coef, spat, crbuf, cbbuf, patch, reply, rfl⟩ := h.shared
  exact ⟨h.idle, ⟨_, _, _, _, _, _, _, _, _, rfl⟩, fun _ => rfl, fun _ => .zero _ _, nofun, by rintro (h | h) <;> cases h⟩

/-- DONE entry places the same patches (R190). -/
theorem enterDone (h : DecodesAlike s s') (c : Cause) :
    DecodesAlike (State.enterDone { s with cause := c }) (State.enterDone { s' with cause := c }) := by
  obtain ⟨blk, k, q, coef, spat, crbuf, cbbuf, patch, reply, rfl⟩ := h.shared
  exact ⟨h.idle, ⟨_, _, _, _, _, _, _, _, _, rfl⟩, h.blk, fun hs => { h.buffers hs with }, h.scan, h.coef⟩

/-- NextWord advances CURSOR in both (R100). -/
theorem consume (h : DecodesAlike s s') : DecodesAlike s.consume s'.consume := by
  obtain ⟨blk, k, q, coef, spat, crbuf, cbbuf, patch, reply, rfl⟩ := h.shared
  exact ⟨h.idle, ⟨_, _, _, _, _, _, _, _, _, rfl⟩, h.blk, fun hs => { h.buffers hs with }, h.scan, h.coef⟩

/-- Inside a macroblock the same values in Q, COEF, K and SUB, all a word can write, keep two states alike. -/
theorem written (h : DecodesAlike s s') (hs : s.sub ≠ .mbStart) (q : BitVec 6) (coef : Block) (k : BitVec 7) (sub : Sub) :
    DecodesAlike { s with q := q, coef := coef, k := k, sub := sub } { s' with q := q, coef := coef, k := k, sub := sub } := by
  obtain ⟨blk, k', q', coef', spat, crbuf, cbbuf, patch, reply, rfl⟩ := h.shared
  exact ⟨h.idle, ⟨_, _, _, _, _, _, _, _, _, rfl⟩, fun _ => h.blk hs, fun _ => { h.buffers hs with }, fun _ => ⟨rfl, rfl⟩, fun _ => rfl⟩

/-- Between the words of a block the two differ in the spatial buffers, PATCH and the reply alone. -/
theorem shared_of_expectAc (h : DecodesAlike s s') (hs : s.sub = .expectAc) : ∃ spat crbuf cbbuf patch reply,
    s' = { s with spat := spat, crbuf := crbuf, cbbuf := cbbuf, patch := patch, reply := reply } := by
  obtain ⟨blk, k, q, coef, spat, crbuf, cbbuf, patch, reply, rfl⟩ := h.shared
  obtain rfl : blk = s.blk := h.blk (by simp [hs])
  obtain ⟨rfl, rfl⟩ : k = s.k ∧ q = s.q := h.scan hs
  obtain rfl : coef = s.coef := h.coef (.inl hs)
  exact ⟨spat, crbuf, cbbuf, patch, reply, rfl⟩

/-- A word in its own context reads only registers on which the two agree (R110, R112). -/
theorem word (h : DecodesAlike s s') {i : Instr} (hi : i.context = s.sub) :
    ∃ t t', exec i s = .next t ∧ exec i s' = .next t' ∧ DecodesAlike t t' := by
  have hs : s.sub ≠ .mbStart := by
    rw [← hi]
    cases i <;> nofun
  cases i with
  | stuff => exact ⟨s, s', rfl, rfl, h⟩
  | dc q amp =>
    refine ⟨_, _, exec_dc q amp s, exec_dc q amp s', ?_⟩
    rw [h.blk hs]
    exact h.written hs _ _ _ _
  | eob =>
    obtain ⟨_, _, _, _, _, rfl⟩ := h.shared_of_expectAc hi.symm
    exact ⟨_, _, exec_eob _, exec_eob _, h.written hs _ _ _ _⟩
  | ac run amp =>
    obtain ⟨_, _, _, _, _, rfl⟩ := h.shared_of_expectAc hi.symm
    by_cases hk : s.k.toNat + run.toNat < 64
    · exact ⟨_, _, exec_ac_of_lt amp hk rfl, exec_ac_of_lt amp hk rfl, h.written hs _ _ _ _⟩
    · exact ⟨_, _, exec_ac_of_le amp (Nat.not_lt.1 hk), exec_ac_of_le amp (Nat.not_lt.1 hk), h.written hs _ _ _ _⟩

/-- BLOCK_END transforms the same block into the same buffer; after the sixth block the two patches are one (R183 to R185). -/
theorem blockEndStep (h : DecodesAlike s s') (hs : s.sub = .blockEnd) (P : Params) :
    DecodesAlike (blockEndStep P s) (blockEndStep P s') := by
  have hne : s.sub ≠ .mbStart := by simp [hs]
  obtain ⟨blk, k, q, coef, spat, crbuf, cbbuf, patch, reply, rfl⟩ := h.shared
  obtain rfl : blk = s.blk := h.blk hne
  obtain rfl : coef = s.coef := h.coef (.inr hs)
  have hbuf := (h.buffers hne).blockEndStep P rfl rfl
  rcases blockEndStep_cases P s with ⟨_, _, _, _, b, hlt, hb, e⟩ | ⟨_, _, _, _, h5, e⟩ <;>
    rcases blockEndStep_cases P { s with k := k, q := q, spat := spat, crbuf := crbuf, cbbuf := cbbuf, patch := patch, reply := reply }
      with ⟨_, _, _, _, b', hlt', hb', e'⟩ | ⟨_, _, _, _, h5', e'⟩ <;>
    simp only [e, e'] at hbuf ⊢
  · obtain rfl : b = b' := Fin.ext (hb.trans hb'.symm)
    rw [← hb] at hbuf
    exact ⟨h.idle, ⟨_, _, _, _, _, _, _, _, _, rfl⟩, fun _ => rfl, fun _ => hbuf, nofun, by rintro (h | h) <;> cases h⟩
  · exact absurd h5' hlt.ne
  · exact absurd h5 hlt'.ne
  · rw [h5] at hbuf
    obtain rfl := hbuf.patch_eq
    exact ⟨h.idle, ⟨_, _, _, _, _, _, _, _, _, rfl⟩, fun hm => absurd rfl hm, fun hm => absurd rfl hm, nofun,
      by rintro (h | h) <;> cases h⟩

/-- Two states alike take the same step, and stay alike. -/
theorem step (h : DecodesAlike s s') : ∃ t t', step s = .next t ∧ step s' = .next t' ∧ DecodesAlike t t' := by
  have hm := h.idle
  obtain ⟨blk, k, q, coef, spat, crbuf, cbbuf, patch, reply, rfl⟩ := h.shared
  rcases engineStep_cases params exec s with ⟨hp, -⟩ | ⟨hp, hs, hc, -⟩ | ⟨hp, hs, hn, -⟩ | ⟨hp, hs, hn, -⟩ |
    ⟨w, i, hp, -, -, hw, hi, -⟩ | ⟨hp, hs, -⟩
  · exact ⟨_, _, engineIdleOutsideDecoding _ hp hm, engineIdleOutsideDecoding _ hp hm, h⟩
  · refine ⟨_, _, step_mbStart hp hs hm, step_mbStart hp hs hm, ?_⟩
    rw [mbStartStep_of_lt hc, mbStartStep_of_lt (by exact hc)]
    exact h.beginMacroblock
  · refine ⟨_, _, step_mbStart hp hs hm, step_mbStart hp hs hm, ?_⟩
    rw [mbStartStep_of_le hn, mbStartStep_of_le (by exact hn)]
    exact h.enterDone .none
  · exact ⟨_, _, step_endOfStream hp hs hm hn, step_endOfStream hp hs hm hn, h.enterDone .endOfStream⟩
  · obtain ⟨t, t', ht, ht', hst⟩ := h.consume.word (encode_of_decode hi).2.1
    refine ⟨t, t', (step_of_decode hp hm hw hi).trans ht, ?_, hst⟩
    rw [← ht']
    exact step_of_decode hp hm hw hi
  · exact ⟨_, _, step_blockEnd hp hs hm, step_blockEnd hp hs hm, h.blockEndStep hs params⟩

/-- So they stay alike through any number of steps. -/
theorem run (k : Nat) (h : DecodesAlike s s') (e : Host.Core.run Sys2Proof.core k s = .next t)
    (e' : Host.Core.run Sys2Proof.core k s' = .next t') : DecodesAlike t t' := by
  induction k generalizing s s' with
  | zero =>
    obtain rfl := Host.Outcome.next.inj e
    obtain rfl := Host.Outcome.next.inj e'
    exact h
  | succ k ih =>
    obtain ⟨u, u', hu, hu', halike⟩ := h.step
    exact ih halike ((run_succ_of_step k hu).symm.trans e) ((run_succ_of_step k hu').symm.trans e')

end DecodesAlike

theorem run_succ_of_refused {s : State} {r : Refusal} (k : Nat) (h : step s = .refused r) :
    Host.Core.run Sys2Proof.core (k + 1) s = .refused r := by
  have hcore : Sys2Proof.core.step s = .refused r := h
  simp only [Host.Core.run, hcore]

/-- Settles O56: a START within the limits makes any two states alike, and one beyond them stops both runs. -/
theorem decodeIndependentOfHistory : Obligations.DecodeIndependentOfHistory := by
  intro s s' words w h hp hp' hw0 hh0 hm hm' k t t' e e'
  have hmove : step s = startMove params words false w h (s.setMoves []) := step_move hm
  have hmove' : step s' = startMove params words false w h (s'.setMoves []) := step_move hm'
  by_cases hlim : params.maxWords < words.length ∨ (params.maxW : Int) < w ∨ (params.maxH : Int) < h
  · cases (run_succ_of_refused k (hmove.trans (startMove_of_tooLarge params false hp hlim))).symm.trans e
  · have hn : words.length ≤ params.maxWords := by omega
    have hw : w ≤ params.maxW := by omega
    have hh : h ≤ params.maxH := by omega
    rw [run_succ_of_step k (hmove.trans (startMove_of_valid params hp hn hw hh hw0 hh0))] at e
    rw [run_succ_of_step k (hmove'.trans (startMove_of_valid params hp' hn hw hh hw0 hh0))] at e'
    exact ((DecodesAlike.initDecode s s' words _ _).run k e e').visible_eq

end Sys2Proof.Machine
end
